-- ==== Sys2Proof/Word.lean ====
section
/-! DEFINITION. The fixed widths of the block's values (spec/00_scope.md R9, R11; spec/10_state.md R23). ADC
codes and temperature readings have no fixed width: `ADC_BITS` and `READING_WIDTH` are parameters (Config.lean),
and a code is a Nat, a reading an Int, in the range the parameter gives (log 28). -/

namespace Sys2Proof

/-- A byte: a register address, a register value, a digit value (R11). -/
abbrev Byte := BitVec 8

/-- A frame word `{A, V}` (30_encoding.md R81). -/
abbrev FrameWord := BitVec 16

/-- `ACC_WIDTH` = 32: the accumulator, the average and the scaled voltage (R9, 92 D8). -/
abbrev U32 := BitVec 32

/-- A duration's lower bound, in microseconds (R16). -/
abbrev Micros := Nat

end Sys2Proof
end

