-- ==== Sys2Proof/Config.lean ====
section
/-! DEFINITION. The implementation parameters of spec/00_scope.md R9 as one record, their default values,
and the free values: constants without a body, of which nothing can be proved. -/

namespace Sys2Proof

/-- `STARTUP_VARIANT` (44_controller_fsm.md R202). -/
inductive Variant where
  | singleAverage
  | multiRound
  deriving DecidableEq, Repr

/-- `TOP_DIGIT_MODE` (42_voltage_sampler.md R157, 43_temperature_formatter.md R180, R183). -/
inductive TopDigitMode where
  | mod10
  | raw
  deriving DecidableEq, Repr

/-- `SENSOR_CFG`: the arguments of the sensor collaborator's `configure` call (44_controller_fsm.md R206). DESIGN
CHOICE: each is an integer of either sign; the spec names the eight and gives them no type, width or sign
(log 29). -/
structure SensorCfg where
  busPort : Int
  busDirectionRegister : Int
  busInputRegister : Int
  pinMask : Int
  deviceIndex : Int
  alarmLow : Int
  alarmHigh : Int
  resolutionMode : Int
  deriving DecidableEq, Repr

/-- The parameters of R9. Fixed for the life of a run (R10). `DIGITS` and `ACC_WIDTH` stand in the types
(`digitCount`, `U32`; log 28). -/
structure Config where
  /-- `ADC_BITS`: the width of an ADC code, unsigned. -/
  adcBits : Nat
  /-- `FRAC_BITS`: the fractional bits of a temperature reading. -/
  fracBits : Nat
  /-- `READING_WIDTH`: the width of a temperature reading, two's complement. -/
  readingWidth : Nat
  aShutdown : Byte
  aTest : Byte
  aDecode : Byte
  aIntensity : Byte
  aScanlimit : Byte
  vNormal : Byte
  vTestOff : Byte
  vDecode : Byte
  vIntensity : Byte
  vScanlimit : Byte
  kCal : U32
  variant : Variant
  nRounds : Nat
  nSamplesRound : Nat
  nSamplesSingle : Nat
  /-- `T_DWELL`, in microseconds, like the three below. -/
  tDwell : Micros
  tLink : Micros
  tSample : Micros
  tConv : Micros
  pinCs : Nat
  pinClk : Nat
  pinDin : Nat
  dinIdle : Bool
  topDigit : TopDigitMode
  sensorCfg : SensorCfg
  deriving DecidableEq, Repr

/-- `DIGITS` = 4 (R9). -/
abbrev digitCount : Nat := 4

/-- The largest ADC code, 1023 for the default `ADC_BITS` (42_voltage_sampler.md R152). -/
def Config.maxCode (c : Config) : Nat := 2 ^ c.adcBits - 1

/-- `N_MAX`, the largest sample count for which `acc` cannot overflow u32: the largest N with
`maxCode * N <= 2^32 - 1`, 4198404 for the default `ADC_BITS` (42_voltage_sampler.md R154, R159; log 28). -/
def Config.maxSamples (c : Config) : Nat := (2 ^ 32 - 1) / c.maxCode

/-! The OPEN parameters of R9: any value in the range R9 gives. -/

/-- `V_INTENSITY`, 0x00..0x0F (R9, 92 D18). -/
opaque Config.openIntensity : BitVec 4

/-- `T_DWELL` (R9, 92 D3). -/
opaque Config.openDwell : Nat

/-- What `T_CONV` exceeds its lower bound of 10 ms by (R9, 92 D21). -/
opaque Config.openConvExtra : Nat

/-- `PIN_CS`, `PIN_CLK`, `PIN_DIN` (R9, 92 D16). -/
opaque Config.openPin : Nat → Nat

/-- The members of `SENSOR_CFG` (R9, 92 D23), in the order R206 lists them. That they are integers: log 29. -/
opaque Config.openSensor : Nat → Int

/-- R9's values; the OPEN parameters are the free values above. Log 1, log 23. -/
def Config.default : Config where
  adcBits := 10
  fracBits := 4
  readingWidth := 16
  aShutdown := 0x0C
  aTest := 0x0F
  aDecode := 0x09
  aIntensity := 0x0A
  aScanlimit := 0x0B
  vNormal := 0x01
  vTestOff := 0x00
  vDecode := 0x0F
  vIntensity := Config.openIntensity.setWidth 8
  vScanlimit := 0x03
  kCal := 1116860
  variant := .singleAverage
  nRounds := 30
  nSamplesRound := 100
  nSamplesSingle := 1000
  tDwell := Config.openDwell
  tLink := 1
  tSample := 1000
  tConv := 10000 + Config.openConvExtra
  pinCs := Config.openPin 0
  pinClk := Config.openPin 1
  pinDin := Config.openPin 2
  dinIdle := false
  topDigit := .mod10
  sensorCfg :=
    { busPort := Config.openSensor 0
      busDirectionRegister := Config.openSensor 1
      busInputRegister := Config.openSensor 2
      pinMask := Config.openSensor 3
      deviceIndex := Config.openSensor 4
      alarmLow := Config.openSensor 5
      alarmHigh := Config.openSensor 6
      resolutionMode := Config.openSensor 7 }

/-! The free values of a run, indexed by a counter of State (log 5, log 6, log 10). -/

/-- Whether a conversion in flight completes at this point, and with which code: `none` is "not yet"
(42_voltage_sampler.md R152). The code's range: log 28. -/
opaque Config.freeAdc : Nat → Option Nat

/-- What a sensor read returns (44_controller_fsm.md R206). Its range: log 28. -/
opaque Config.freeReading : Nat → Int

/-- The level a line takes when `ConfigurePins` makes it a driven output (44_controller_fsm.md R201, 92 D39). -/
opaque Config.freeLevel : Nat → Bool

/-- The ADC completion flag after reset (10_state.md R42, 92 D34). -/
opaque Config.freeAdcDone : Nat → Bool

/-- The ADC result after reset (10_state.md R42, 92 D33). -/
opaque Config.freeAdcResult : Nat → Nat

/-- The receiver's shift register where it is unspecified (10_state.md R42, 92 D33). -/
opaque Config.freeShift : Nat → BitVec 16

/-- The receiver's bit count where it is unspecified (10_state.md R42, 92 D33). -/
opaque Config.freeCount : Nat → Nat

/-- A display-driver register where it is unspecified, by epoch and address (10_state.md R42, 92 D33, D38). -/
opaque Config.freeReg : Nat → Byte → Byte

/-- Whether a display in shutdown with display test on is lit: 45_display_receiver.md R238 and R239 both
speak and do not say which holds (log 18). -/
opaque Config.freeTestBeatsShutdown : Bool

end Sys2Proof
end

