-- ==== Sys2Proof/Syntax.lean ====
section
/-! DEFINITION. The commands of spec/opcode_table.json, one constructor per row, and the program syntax of
spec/30_encoding.md R91. -/

namespace Sys2Proof

/-- The nine frame commands (30_encoding.md R85), in the table's order. A digit write carries SetDigit's
operands, the digit value `v` and the decimal point `dp`; a control write carries its value byte. -/
inductive Instr where
  | wrDigP0 (v : Byte) (dp : Bool)
  | wrDigP3 (v : Byte) (dp : Bool)
  | wrDigP1 (v : Byte) (dp : Bool)
  | wrDigP2 (v : Byte) (dp : Bool)
  | wrDecode (v : Byte)
  | wrIntensity (v : Byte)
  | wrScanlimit (v : Byte)
  | wrShutdown (v : Byte)
  | wrTest (v : Byte)
  deriving DecidableEq, Repr

/-- The logical digit positions, left to right (00_scope.md R15). -/
inductive Pos where
  | p0
  | p1
  | p2
  | p3
  deriving DecidableEq, Repr

/-- One value per logical digit position: `dig[0..3]`, `dp[0..3]` (10_state.md R23). -/
structure Quad (α : Type) where
  p0 : α
  p1 : α
  p2 : α
  p3 : α
  deriving DecidableEq, Repr

/-- The operations a program calls once R92's expansions are made. -/
inductive Call where
  | wr (a v : Byte)
  | dig (p : Nat) (v : Byte) (dp : Bool)
  | vcc (n : Nat)
  | temp
  | delay (t : Micros)
  deriving DecidableEq, Repr

/-- The program syntax of 30_encoding.md R91; `none` is `@-`. -/
inductive Op where
  | wr (a v : Byte)
  | dig (p : Nat) (v : Byte) (dp : Bool)
  | show (v : Quad Byte) (point : Option Pos)
  | initDisplay
  | vcc (n : Nat)
  | temp
  | delay (t : Micros)
  deriving DecidableEq, Repr

end Sys2Proof
end

