-- ==== Sys2Proof/WellFormed.lean ====
section
/-! DEFINITION. Which commands, programs and configurations the spec gives a meaning without a corner case. -/

namespace Sys2Proof

/-- A digit value fits bits 6..0 of the digit byte, so that `v` and `dp` are both read back from the byte
(30_encoding.md R83, R89: from 128 on `v[7]` also sets bit 7). Every value byte of a control write is well
formed (R82). -/
def Instr.WellFormed (i : Instr) : Bool :=
  match i with
  | .wrDigP0 v _ => v.toNat < 128
  | .wrDigP3 v _ => v.toNat < 128
  | .wrDigP1 v _ => v.toNat < 128
  | .wrDigP2 v _ => v.toNat < 128
  | .wrDecode _ => true
  | .wrIntensity _ => true
  | .wrScanlimit _ => true
  | .wrShutdown _ => true
  | .wrTest _ => true

/-- SetDigit's position is 0..3 (41_display_register.md R141) and SampleAverageVcc's count 1..N_MAX
(42_voltage_sampler.md R154; log 30). -/
def Call.WellFormed (cfg : Config) (c : Call) : Bool :=
  match c with
  | .wr _ _ => true
  | .dig p _ _ => p < digitCount
  | .vcc n => 1 ≤ n && n ≤ cfg.maxSamples
  | .temp => true
  | .delay _ => true

/-- The five control registers' addresses, in Init's order (44_controller_fsm.md R201). -/
def Config.controlAddresses (c : Config) : List Byte :=
  [c.aShutdown, c.aTest, c.aDecode, c.aIntensity, c.aScanlimit]

/-- The nine register addresses are nine (20_memory.md R61): no two control addresses agree and none is a
digit address. -/
def Config.addressesOk (c : Config) : Bool :=
  decide c.controlAddresses.Nodup && c.controlAddresses.all fun a => a ∉ [0x01, 0x02, 0x03, (0x04 : Byte)]

/-- The sample counts lie in 1..N_MAX (42_voltage_sampler.md R154). -/
def Config.countsOk (c : Config) : Bool :=
  1 ≤ c.nSamplesSingle && c.nSamplesSingle ≤ c.maxSamples && 1 ≤ c.nSamplesRound && c.nSamplesRound ≤ c.maxSamples

/-- `T_LINK` is at least 1 µs and `T_CONV` at least 10 ms (00_scope.md R9). -/
def Config.delaysOk (c : Config) : Bool :=
  1 ≤ c.tLink && 10000 ≤ c.tConv

/-- `V_INTENSITY` is 0x00..0x0F (00_scope.md R9). -/
def Config.intensityOk (c : Config) : Bool :=
  c.vIntensity.toNat ≤ 0x0F

/-- The widths make sense: a code has a bit and fits the accumulator, a reading has a sign bit beside its
fractional bits (00_scope.md R9, R14; the range is the model's, log 28). -/
def Config.widthsOk (c : Config) : Bool :=
  1 ≤ c.adcBits && c.adcBits ≤ 32 && c.fracBits < c.readingWidth

/-- The ranges R9 gives the parameters. -/
def Config.WellFormed (c : Config) : Bool :=
  c.widthsOk && c.addressesOk && c.countsOk && c.delaysOk && c.intensityOk

end Sys2Proof
end

