-- ==== Sys2Proof/Decode.lean ====
section
/-! DEFINITION. Frame words and commands: spec/30_encoding.md R80 to R87. The decoder is total and refuses
the words of no command of the block; the encoder is written from the same table. -/

namespace Sys2Proof

/-- `{A, V}`, the number `A * 256 + V` (R81; 00_scope.md R11). -/
def frameWord (a v : Byte) : FrameWord := (a.setWidth 16 <<< 8) ||| v.setWidth 16

/-- The address byte `w[15:8]` (R81). -/
def wordAddr (w : FrameWord) : Byte := w.extractLsb' 8 8

/-- The value byte `w[7:0]` (R81). -/
def wordValue (w : FrameWord) : Byte := w.setWidth 8

/-- The digit byte `(v | (b(dp) << 7)) & 0xFF` (R83; 41_display_register.md R132). -/
def packDigit (v : Byte) (dp : Bool) : Byte := v ||| (if dp then 0x80 else 0x00)

/-- The digit value of a digit byte: bits 6..0 (R83). -/
def byteDigit (b : Byte) : Byte := b &&& 0x7F

/-- The decimal point of a digit byte: bit 7 (R83). -/
def bytePoint (b : Byte) : Bool := b.getLsbD 7

/-- The command a frame word stands for (R86): the row of R85 whose address is the word's; `none` where no
row's is (R87). -/
def decode (c : Config) (w : FrameWord) : Option Instr :=
  let a := wordAddr w
  let v := wordValue w
  if a = 0x01 then some (.wrDigP0 (byteDigit v) (bytePoint v))
  else if a = 0x02 then some (.wrDigP3 (byteDigit v) (bytePoint v))
  else if a = 0x03 then some (.wrDigP1 (byteDigit v) (bytePoint v))
  else if a = 0x04 then some (.wrDigP2 (byteDigit v) (bytePoint v))
  else if a = c.aDecode then some (.wrDecode v)
  else if a = c.aIntensity then some (.wrIntensity v)
  else if a = c.aScanlimit then some (.wrScanlimit v)
  else if a = c.aShutdown then some (.wrShutdown v)
  else if a = c.aTest then some (.wrTest v)
  else none

/-- The frame word of a command (R85). -/
def encode (c : Config) (i : Instr) : FrameWord :=
  match i with
  | .wrDigP0 v dp => frameWord 0x01 (packDigit v dp)
  | .wrDigP3 v dp => frameWord 0x02 (packDigit v dp)
  | .wrDigP1 v dp => frameWord 0x03 (packDigit v dp)
  | .wrDigP2 v dp => frameWord 0x04 (packDigit v dp)
  | .wrDecode v => frameWord c.aDecode v
  | .wrIntensity v => frameWord c.aIntensity v
  | .wrScanlimit v => frameWord c.aScanlimit v
  | .wrShutdown v => frameWord c.aShutdown v
  | .wrTest v => frameWord c.aTest v

/-- The frame word an opcode-table number stands for: its low `nbits` bits, the rest 0. -/
def tableWord (nbits w : Nat) : FrameWord := BitVec.ofNat 16 (w % 2 ^ nbits)

/-- The decoder on an opcode-table word, under the default parameters (spec/opcode_table.json). -/
def decodeTableWord (nbits w : Nat) : Option Instr := decode Config.default (tableWord nbits w)

end Sys2Proof
end

