-- ==== Sys2Proof/Machine/State.lean ====
section
/-! DEFINITION. The state the spec gives the block, the display-driver chip and the outside world
(spec/10_state.md), as plain data, and its value after reset (R42). -/

namespace Sys2Proof.Machine

/-- R20. -/
inductive Phase where
  | init
  | calibratingVoltage
  | displayingTemperature
  | faulted
  deriving DecidableEq, Repr

/-- The three logical pins (R26). -/
inductive Sig where
  | cs
  | clk
  | din
  deriving DecidableEq, Repr

/-- A line's level: `Z` is "not yet configured as a driven output" (R26). -/
inductive Line where
  | z
  | driven (lvl : Bool)
  deriving DecidableEq, Repr

/-- R28, R29. -/
inductive AdcSel where
  | unset
  | bandgapVsVcc
  deriving DecidableEq, Repr

/-- The fault kinds of 60_exceptions.md R250. -/
inductive FaultKind where
  | vccDivideByZero
  deriving DecidableEq, Repr

/-- A recorded fault with its info (60_exceptions.md R251). -/
inductive FaultRecord where
  | vccDivideByZero (acc : U32)
  deriving DecidableEq, Repr

/-- The port events of R27. -/
inductive Event where
  | line (sig : Sig) (lvl : Bool)
  | pinsConfigured
  | delay (t : Micros)
  | adcEnable
  | adcSelect
  | adcStart
  | adcPoll (done : Bool)
  | adcClearDone
  | adcRead (code : Nat)
  | sensorConfigure (cfg : SensorCfg)
  | sensorStart
  | sensorRead (r : Int)
  | fault (kind : FaultKind)
  deriving DecidableEq, Repr

/-- Where a called SampleAverageVcc and ShowVoltage return to: the SingleAverage or MultiRound startup
(44_controller_fsm.md R200) or a loaded program. -/
inductive Caller where
  | single
  | multi
  | script
  deriving DecidableEq, Repr

/-- The statements of SampleAverageVcc, AdcConvertOne and ScaleVcc (42_voltage_sampler.md R153, R154, R156). -/
inductive SamplerStep where
  | select
  | clearAcc
  | start
  | poll
  | clearDone
  | read
  | accumulate
  | settle
  | average
  | scale
  deriving DecidableEq, Repr

/-- The statements of one temperature iteration, T1 to T5 (44_controller_fsm.md R200, R207); `format` and `show`
are T4, `again` is T5. -/
inductive TempStep where
  | start
  | wait
  | read
  | format
  | show (p : Pos)
  | again
  deriving DecidableEq, Repr

/-- The control point: a label of the program of 44_controller_fsm.md R200 (10_state.md R22). `sampler`'s
`count` is SampleAverageVcc's operand N; `m1`'s flag says that the loop of the rounds is entered; `temp`'s flag says that a loaded program called the iteration. -/
inductive Cp where
  | i1
  | i2
  | i3
  | i4
  | i5
  | i6
  | i7
  | i8
  | i9
  | i10
  | i11
  | i12
  | sampler (st : SamplerStep) (count : Nat) (caller : Caller)
  | formatVoltage (caller : Caller)
  | showVoltage (p : Pos) (caller : Caller)
  | s3
  | m1 (first : Bool)
  | c1
  | temp (st : TempStep) (called : Bool)
  deriving DecidableEq, Repr

/-- One primitive of a link operation: a step of 40_serial_link.md's pseudocode (R110 to R115). -/
inductive Prim where
  /-- `frame <- w`. -/
  | load (w : FrameWord)
  /-- `SetLine(sig, lvl)`. -/
  | line (sig : Sig) (lvl : Bool)
  /-- `SetLine(DIN, frame[k])`, the first statement of `SendBit(frame[k])`. -/
  | dataBit (k : Fin 16)
  /-- `Delay(T_LINK)`. -/
  | linkDelay
  deriving DecidableEq, Repr

/-- Whose turn a step is (log 2, log 3). -/
inductive Turn where
  /-- The controller performs its next operation whole: as many turns `prim` in one. Listed only. -/
  | run
  /-- The controller performs one primitive or internal computation (10_state.md R22). -/
  | prim
  /-- The ADC completes the conversion in flight with this code (42_voltage_sampler.md R152). A number outside
  the code's range: log 28. -/
  | adc (code : Nat)
  /-- A hardware reset (70_reset_and_hazards.md R280). -/
  | reset
  deriving DecidableEq, Repr

/-- The display-driver chip as far as the spec gives it (45_display_receiver.md R230 to R232): the registers
written since the register file was last unspecified, by rising address, the shift register and the bit
count. A register not listed is unspecified: the free value of this epoch (log 5, log 10). -/
structure Rx where
  cells : List Host.Cell
  shift : BitVec 16
  count : Nat
  epoch : Nat
  deriving DecidableEq, Repr

/-- Reasons the machine stops. -/
inductive Fault where
  /-- Raised by `controller` in phase `Faulted`: "in `Faulted` the controller has no further step ... until
  reset" (60_exceptions.md R251). Safe: the hardware makes no step either. -/
  | stopped (fault : Option FaultRecord)
  deriving DecidableEq, Repr

/-- Reasons an operation has no meaning. -/
inductive Refusal where
  /-- Raised by `exec` for an instruction without a meaning: none is left. Safe. -/
  | notModelled (mnemonic : String)
  /-- Raised by a called SetDigit whose position is not 0..3: "refused: a model gives it no step and flags
  the refusal" (41_display_register.md R141). Safe. -/
  | positionOutOfRange (p : Nat)
  /-- Raised by SampleAverageVcc whose count is not 1..N_MAX: "`N = 0` is refused" (42_voltage_sampler.md
  R154); DESIGN CHOICE: a count above N_MAX too (log 30). Safe. -/
  | sampleCountOutOfRange (n : Nat)
  deriving DecidableEq, Repr

/-- The machine's state. INVENTORY.md's `## State` lists every field with its rule and its reset value. -/
structure State where
  /-- The parameters (00_scope.md R9): no state of the spec's (R10), and no step changes it (log 1). -/
  cfg : Config
  phase : Phase
  cp : Cp
  /-- What is still to do of the link operation in progress (R22, R41). -/
  rest : List Prim
  acc : U32
  n : Nat
  /-- u`ADC_BITS`. -/
  sample : Nat
  avg : U32
  vccScaled : U32
  round : Nat
  /-- s`READING_WIDTH`. -/
  reading : Int
  dig : Quad Byte
  dp : Quad Bool
  frame : FrameWord
  bit : Fin 16
  cs : Line
  clk : Line
  din : Line
  /-- R27's trace, newest event first (log 22); `State.trace` is the spec's order. -/
  events : List Event
  adcEnabled : Bool
  adcSel : AdcSel
  adcBusy : Bool
  adcDone : Bool
  /-- u`ADC_BITS`. -/
  adcResult : Nat
  sensorConfigured : Bool
  sensorPending : Bool
  fault : Option FaultRecord
  rx : Rx
  /-- The loaded program's calls still to be made (log 11). -/
  script : List Call
  /-- Where a called SampleAverageVcc or temperature iteration returns to (log 12). -/
  resume : Cp
  /-- Whose turn the next steps are; empty: the controller's, one primitive a step, and the ADC as it likes (log 3). -/
  turns : List Turn
  /-- The sensor's next answers; empty: free values (log 6). A number outside a reading's range: log 28. -/
  readings : List Int
  /-- How many free values have been drawn (log 6). -/
  draws : Nat
  deriving DecidableEq, Repr

/-- The trace in program order (R27). -/
def State.trace (s : State) : List Event := s.events.reverse

/-- The state after power-on (R42). The values R42 leaves unspecified: log 4, log 5. -/
def State.reset : State where
  cfg := Config.default
  phase := .init
  cp := .i1
  rest := []
  acc := 0
  n := 0
  sample := 0
  avg := 0
  vccScaled := 0
  round := 0
  reading := 0
  dig := { p0 := 0, p1 := 0, p2 := 0, p3 := 0 }
  dp := { p0 := false, p1 := false, p2 := false, p3 := false }
  frame := 0
  bit := 0
  cs := .z
  clk := .z
  din := .z
  events := []
  adcEnabled := false
  adcSel := .unset
  adcBusy := false
  adcDone := Config.freeAdcDone 0
  adcResult := Config.freeAdcResult 0 % 2 ^ Config.default.adcBits
  sensorConfigured := false
  sensorPending := false
  fault := none
  rx := { cells := [], shift := Config.freeShift 0, count := Config.freeCount 0, epoch := 0 }
  script := []
  resume := .i1
  turns := []
  readings := []
  draws := 1

end Sys2Proof.Machine
end

