-- ==== Sys2Proof/Machine/Operands.lean ====
section
/-! DEFINITION. The operands of the display register model: positions, physical addresses, digit bytes
(spec/41_display_register.md R130 to R133, R141); and the ranges of the numbers the ADC and the sensor answer
with (spec/42_voltage_sampler.md R152, spec/44_controller_fsm.md R206). -/

namespace Sys2Proof.Machine

/-- The logical position numbered `p`; none outside 0..3 (R141). -/
def posOfNat (p : Nat) : Option Pos :=
  match p with
  | 0 => some .p0
  | 1 => some .p1
  | 2 => some .p2
  | 3 => some .p3
  | _ => none

/-- The position's number (00_scope.md R15). -/
def posNumber (p : Pos) : Nat :=
  match p with
  | .p0 => 0
  | .p1 => 1
  | .p2 => 2
  | .p3 => 3

/-- The position to the right, in ShowDigits' order (R134); none after the last. -/
def posNext (p : Pos) : Option Pos :=
  match p with
  | .p0 => some .p1
  | .p1 => some .p2
  | .p2 => some .p3
  | .p3 => none

/-- The member of a quadruple at a position. -/
def quadAt {α : Type} (q : Quad α) (p : Pos) : α :=
  match p with
  | .p0 => q.p0
  | .p1 => q.p1
  | .p2 => q.p2
  | .p3 => q.p3

/-- PhysAddr (R130): 0→1, 1→3, 2→4, 3→2. -/
def physAddr (p : Pos) : Byte :=
  match p with
  | .p0 => 0x01
  | .p1 => 0x03
  | .p2 => 0x04
  | .p3 => 0x02

/-- The inverse permutation (R131): 1→0, 2→3, 3→1, 4→2. -/
def logicalPos (a : Byte) : Option Pos :=
  if a = 0x01 then some .p0
  else if a = 0x02 then some .p3
  else if a = 0x03 then some .p1
  else if a = 0x04 then some .p2
  else none

/-- The frame word of SetDigit(p, v, dp) (R133). -/
def digitWord (p : Pos) (v : Byte) (dp : Bool) : FrameWord := frameWord (physAddr p) (packDigit v dp)

/-! The answers of the ADC and the sensor: any value of the width the parameter gives (log 28). -/

/-- A number as a code of `ADC_BITS` bits, unsigned (00_scope.md R14). -/
def adcCode (c : Config) (x : Nat) : Nat := x % 2 ^ c.adcBits

/-- A number as a reading of `READING_WIDTH` bits, two's complement (00_scope.md R14). -/
def sensorValue (c : Config) (x : Int) : Int := Int.bmod x (2 ^ c.readingWidth)

end Sys2Proof.Machine
end

