-- ==== Sys2Proof/Machine/Program.lean ====
section
/-! DEFINITION. Programs in the syntax of spec/30_encoding.md R91, and R92's expansions of the composite
operations. -/

namespace Sys2Proof.Machine

/-- ShowDigits as four digit writes at positions 0, 1, 2, 3 (R92; 41_display_register.md R134). -/
def showCalls (v : Quad Byte) (point : Option Pos) : List Call :=
  [.dig 0 v.p0 (point == some .p0), .dig 1 v.p1 (point == some .p1),
   .dig 2 v.p2 (point == some .p2), .dig 3 v.p3 (point == some .p3)]

/-- INIT_DISPLAY as the five control writes (R92; 44_controller_fsm.md R200 I6 to I10). -/
def initDisplayCalls (c : Config) : List Call :=
  [.wr c.aShutdown c.vNormal, .wr c.aTest c.vTestOff, .wr c.aDecode c.vDecode,
   .wr c.aIntensity c.vIntensity, .wr c.aScanlimit c.vScanlimit]

/-- The calls an operation stands for (R92). -/
def expandOp (c : Config) (o : Op) : List Call :=
  match o with
  | .wr a v => [.wr a v]
  | .dig p v dp => [.dig p v dp]
  | .show v point => showCalls v point
  | .initDisplay => initDisplayCalls c
  | .vcc n => [.vcc n]
  | .temp => [.temp]
  | .delay t => [.delay t]

/-- Loads a program from outside the machine (log 11). -/
def loadProgram (ops : List Op) (s : State) : State :=
  { s with script := ops.flatMap (expandOp s.cfg) }

end Sys2Proof.Machine
end

