-- ==== Sys2Proof/Machine/Ops.lean ====
section
/-! DEFINITION. The named operations over the lines, the trace, the receiver's register file and the serial
link (spec/40_serial_link.md, spec/45_display_receiver.md R230 to R232), raising a fault
(spec/60_exceptions.md R251) and reset (spec/70_reset_and_hazards.md R280). -/

namespace Sys2Proof.Machine

/-! The register file as a memory: cells by strictly rising address. -/

/-- A memory's cells. -/
abbrev Memory := List Host.Cell

/-- The addresses rise strictly, from `lo` on, and stay below 256 (20_memory.md R61). -/
def Memory.wfFrom (lo : Nat) : Memory → Bool
  | [] => true
  | (a, _) :: cs => lo ≤ a && a < 256 && Memory.wfFrom (a + 1) cs

/-- The canonical form. -/
def Memory.wf (m : Memory) : Bool := Memory.wfFrom 0 m

/-- The byte written at an address; none where nothing has been. -/
def Memory.read : Memory → Nat → Option Byte
  | [], _ => none
  | (b, v) :: cs, a => if a = b then some v else Memory.read cs a

/-- Writes a byte, keeping the canonical form. -/
def Memory.write : Memory → Nat → Byte → Memory
  | [], a, v => [(a, v)]
  | (b, x) :: cs, a, v =>
    if a < b then (a, v) :: (b, x) :: cs
    else if a = b then (a, v) :: cs
    else (b, x) :: Memory.write cs a v

/-! The receiver. -/

/-- `rx_reg[a]` (10_state.md R34): what was written, or else the free value of the epoch (log 5, log 10). -/
def Rx.reg (r : Rx) (a : Byte) : Byte := (Memory.read r.cells a.toNat).getD (Config.freeReg r.epoch a)

/-- The register write `rx_reg[a] <- v` (45_display_receiver.md R232). -/
def Rx.write (r : Rx) (a v : Byte) : Rx := { r with cells := Memory.write r.cells a.toNat v }

/-- "every `rx_reg[*]` becomes unspecified" (R231). -/
def Rx.forget (r : Rx) : Rx := { r with cells := [], epoch := r.epoch + 1 }

/-- The registers, the shift register and the bit count all become unspecified (10_state.md R42, log 8, log 9). -/
def Rx.havoc (r : Rx) : Rx :=
  { cells := [], shift := Config.freeShift (r.epoch + 1), count := Config.freeCount (r.epoch + 1), epoch := r.epoch + 1 }

/-- Shift-in (R230). -/
def Rx.shiftIn (r : Rx) (d : Bool) : Rx :=
  { r with shift := (r.shift <<< 1) ||| (BitVec.ofBool d).setWidth 16, count := r.count + 1 }

/-- Latch (R231). -/
def Rx.latch (r : Rx) : Rx :=
  if r.count = 16 then r.write (wordAddr r.shift) (wordValue r.shift) else r.forget

/-- What the receiver does at the event `Line(sig, lvl)`, the lines' levels before it being `cs`, `clk` and
`din` (R230, R231). While a line is undriven its reaction is unspecified (log 8). -/
def Rx.onLine (r : Rx) (cs clk din : Line) (sig : Sig) (lvl : Bool) : Rx :=
  match cs, clk, din with
  | .driven c, .driven k, .driven d =>
    match sig, lvl with
    | .clk, true => if !k && !c then r.shiftIn d else r
    | .cs, false => if c then { r with count := 0 } else r
    | .cs, true => if !c then r.latch else r
    | _, _ => r
  | _, _, _ => r.havoc

/-! The trace and the lines. -/

/-- `trace <- trace ++ [e]` (10_state.md R27). -/
def record (e : Event) (s : State) : State := { s with events := e :: s.events }

/-- A line's level (10_state.md R26). -/
def State.line (s : State) (sig : Sig) : Line :=
  match sig with
  | .cs => s.cs
  | .clk => s.clk
  | .din => s.din

/-- `line[sig] <- lvl`. -/
def drive (sig : Sig) (lvl : Bool) (s : State) : State :=
  match sig with
  | .cs => { s with cs := .driven lvl }
  | .clk => { s with clk := .driven lvl }
  | .din => { s with din := .driven lvl }

/-- SetLine (40_serial_link.md R110), with the receiver's reaction to the event. It always succeeds; on a
line that is not configured yet: log 7. -/
def setLine (sig : Sig) (lvl : Bool) (s : State) : State :=
  let r := s.rx.onLine s.cs s.clk s.din sig lvl
  record (.line sig lvl) { drive sig lvl s with rx := r }

/-- Delay (00_scope.md R13): an event with its lower bound. -/
def delay (t : Micros) (s : State) : State := record (.delay t) s

/-- `Delay(T_LINK)` (40_serial_link.md R112). -/
def linkDelay (s : State) : State := delay s.cfg.tLink s

/-- Init's I1 (44_controller_fsm.md R201): the lines become driven outputs at unspecified levels, which may
form a spurious chip-select pulse, so that the receiver is unspecified too (92 D38, D39; log 24). -/
def configurePins (s : State) : State :=
  record .pinsConfigured
    { s with
      cs := .driven (Config.freeLevel s.draws)
      clk := .driven (Config.freeLevel (s.draws + 1))
      din := .driven (Config.freeLevel (s.draws + 2))
      draws := s.draws + 3
      rx := s.rx.havoc }

/-! The serial link (40_serial_link.md R113 to R115). -/

/-- SendBit (R113). -/
def sendBit (b : Bool) (s : State) : State :=
  let s := linkDelay (setLine .din b s)
  let s := linkDelay (setLine .clk true s)
  linkDelay (setLine .clk false s)

/-- SendByte (R114): bits 7 down to 0. -/
def sendByte (x : Byte) (s : State) : State :=
  [7, 6, 5, 4, 3, 2, 1, 0].foldl (fun t i => sendBit (x.getLsbD i) t) s

/-- The bit numbers of a frame in the order they are sent (R115). -/
def frameBits : List (Fin 16) := [15, 14, 13, 12, 11, 10, 9, 8, 7, 6, 5, 4, 3, 2, 1, 0]

/-- One turn of WriteCommand's loop: `SendBit(frame[bit])` (R115). -/
def sendFrameBit (s : State) (k : Fin 16) : State := sendBit (s.frame.getLsbD k.val) { s with bit := k }

/-- WriteCommand (R115). -/
def writeCommand (a v : Byte) (s : State) : State :=
  let s := linkDelay (setLine .cs false { s with frame := frameWord a v })
  let s := frameBits.foldl sendFrameBit s
  linkDelay (setLine .cs true s)

/-- SetDigit at a position (41_display_register.md R133). -/
def setDigit (p : Pos) (v : Byte) (dp : Bool) (s : State) : State :=
  writeCommand (physAddr p) (packDigit v dp) s

/-! The same operations one primitive at a time (10_state.md R22; log 2). -/

/-- Performs one primitive. DESIGN CHOICE: the loop counter `bit` takes its next value in the primitive that
sets the data line to `frame[bit]`, and so keeps its old value from CS low to the first data bit (log 26). -/
def applyPrim (s : State) (p : Prim) : State :=
  match p with
  | .load w => { s with frame := w }
  | .line sig lvl => setLine sig lvl s
  | .dataBit k => setLine .din (s.frame.getLsbD k.val) { s with bit := k }
  | .linkDelay => linkDelay s

/-- Performs primitives in order. -/
def runPrims (ps : List Prim) (s : State) : State := ps.foldl applyPrim s

/-- The primitives of one turn of WriteCommand's loop (R113, R115). -/
def bitPrims (k : Fin 16) : List Prim :=
  [.dataBit k, .linkDelay, .line .clk true, .linkDelay, .line .clk false, .linkDelay]

/-- The primitives of WriteCommand (R115). -/
def framePrims (w : FrameWord) : List Prim :=
  [.load w, .line .cs false, .linkDelay] ++ frameBits.flatMap bitPrims ++ [.line .cs true, .linkDelay]

/-- The primitives of one of Init's steps I2 to I4 (44_controller_fsm.md R200). -/
def idlePrims (sig : Sig) (lvl : Bool) : List Prim := [.line sig lvl, .linkDelay]

/-! Faults and reset. -/

/-- The kind of a recorded fault. -/
def faultKind (f : FaultRecord) : FaultKind :=
  match f with
  | .vccDivideByZero _ => .vccDivideByZero

/-- `raise F(info)` (60_exceptions.md R251): records the fault, appends its event, sets the phase. The
controller then stops (`controller`); nothing returns from it but a reset (R259). -/
def raise (f : FaultRecord) (s : State) : State :=
  record (.fault (faultKind f)) { s with fault := some f, phase := .faulted }

/-- A hardware reset (70_reset_and_hazards.md R280, R281): every block state element takes its reset value
(10_state.md R42), every remote one is unspecified (log 9); the parameters and the outside world stay. -/
def hardReset (s : State) : State :=
  { State.reset with
    cfg := s.cfg
    adcDone := Config.freeAdcDone s.draws
    adcResult := adcCode s.cfg (Config.freeAdcResult s.draws)
    rx := s.rx.havoc
    turns := s.turns
    readings := s.readings
    draws := s.draws + 1 }

end Sys2Proof.Machine
end

