-- ==== Sys2Proof/Machine/Flags.lean ====
section
/-! DEFINITION. The one flag in the block's reach, the ADC completion flag `adc_done` (spec/10_state.md R25,
R30): who sets, reads and clears it. No operation of the block computes a condition code (R25). -/

namespace Sys2Proof.Machine

/-- The ADC agent completes the conversion in flight with code `c` (42_voltage_sampler.md R152); without
one in flight it does nothing. The only setter of the flag (R30). -/
def adcComplete (c : Nat) (s : State) : State :=
  if s.adcBusy then { s with adcResult := adcCode s.cfg c, adcDone := true, adcBusy := false } else s

/-- AdcPoll's event; it returns `adc_done` and has no side effect (42_voltage_sampler.md R153; 20_memory.md
R69). -/
def adcPoll (s : State) : State := record (.adcPoll s.adcDone) s

/-- AdcClearDone (42_voltage_sampler.md R153): the only clearer of the flag (R30). -/
def adcClearDone (s : State) : State := record .adcClearDone { s with adcDone := false }

end Sys2Proof.Machine
end

