-- ==== Sys2Proof/Machine/Voltage.lean ====
section
/-! DEFINITION. The ADC port operations, the sampler and the voltage formatter
(spec/42_voltage_sampler.md). -/

namespace Sys2Proof.Machine

/-- AdcEnable (R150). -/
def adcEnable (s : State) : State := record .adcEnable { s with adcEnabled := true }

/-- AdcSelectBandgapVsVcc (R151). -/
def adcSelect (s : State) : State := record .adcSelect { s with adcSel := .bandgapVsVcc }

/-- AdcStart (R153). -/
def adcStart (s : State) : State := record .adcStart { s with adcBusy := true }

/-- `sample <- AdcRead()` (R153). -/
def adcRead (s : State) : State := record (.adcRead s.adcResult) { s with sample := s.adcResult }

/-- `acc <- acc + zext_32(sample)` (R154). -/
def accumulate (s : State) : State := { s with acc := s.acc + BitVec.ofNat 32 s.sample }

/-- `avg <- acc / N`, truncating (R155). -/
def average (n : Nat) (s : State) : State := { s with avg := BitVec.ofNat 32 (s.acc.toNat / n) }

/-- `vcc_scaled <- ScaleVcc(avg)`; an average of 0 raises `VccDivideByZero(acc)` (R156). -/
def scaleVcc (s : State) : State :=
  if s.avg = 0 then raise (.vccDivideByZero s.acc) s else { s with vccScaled := s.cfg.kCal / s.avg }

/-- The reduction of the most significant digit, `top` (R157; 43_temperature_formatter.md R180). -/
def topDigit (m : TopDigitMode) (q : Nat) : Byte :=
  match m with
  | .mod10 => BitVec.ofNat 8 (q % 10)
  | .raw => BitVec.ofNat 8 (q % 256)

/-- FormatVoltage's digits (R157). -/
def voltageDigits (m : TopDigitMode) (v : U32) : Quad Byte where
  p0 := topDigit m (v.toNat / 1000)
  p1 := BitVec.ofNat 8 (v.toNat / 100 % 10)
  p2 := BitVec.ofNat 8 (v.toNat / 10 % 10)
  p3 := BitVec.ofNat 8 (v.toNat % 10)

/-- FormatVoltage's decimal points: after the first digit (R157). -/
def voltagePoints : Quad Bool where
  p0 := true
  p1 := false
  p2 := false
  p3 := false

/-- `FormatVoltage(vcc_scaled)` (R157, R158). -/
def formatVoltage (s : State) : State :=
  { s with dig := voltageDigits s.cfg.topDigit s.vccScaled, dp := voltagePoints }

end Sys2Proof.Machine
end

