-- ==== Sys2Proof/Machine/Temperature.lean ====
section
/-! DEFINITION. The temperature formatter (spec/43_temperature_formatter.md) and the sensor port
(spec/44_controller_fsm.md R206). -/

namespace Sys2Proof.Machine

/-- FormatTemperature's outcome (R180). -/
inductive TempOutcome where
  | ok (dig : Quad Byte) (dp : Quad Bool)
  | unsupported
  deriving DecidableEq, Repr

/-! `k` is `FRAC_BITS`; the rules write it as 4, and 16 for its power of two. -/

/-- The integer part of a non-negative reading, `r >> FRAC_BITS` (R180, R186). -/
def tempInteger (k : Nat) (r : Int) : Nat := r.toNat >>> k

/-- The low `FRAC_BITS` bits of a non-negative reading (R180, R186). -/
def tempFraction (k : Nat) (r : Int) : Nat := r.toNat % 2 ^ k

/-- The fraction in units of one `scale`th, truncating (R184). -/
def tempDecimals (k : Nat) (r : Int) (scale : Nat) : Nat := tempFraction k r * scale / 2 ^ k

/-- The layout below 100 degrees (R182, R184). -/
def tempDigitsLow (k : Nat) (r : Int) : Quad Byte where
  p0 := BitVec.ofNat 8 (tempInteger k r / 10)
  p1 := BitVec.ofNat 8 (tempInteger k r % 10)
  p2 := BitVec.ofNat 8 (tempDecimals k r 100 / 10)
  p3 := BitVec.ofNat 8 (tempDecimals k r 100 % 10)

/-- The layout at or above 100 degrees (R183, R184). -/
def tempDigitsHigh (k : Nat) (m : TopDigitMode) (r : Int) : Quad Byte where
  p0 := topDigit m (tempInteger k r / 100)
  p1 := BitVec.ofNat 8 (tempInteger k r / 10 % 10)
  p2 := BitVec.ofNat 8 (tempInteger k r % 10)
  p3 := BitVec.ofNat 8 (tempDecimals k r 10)

/-- FormatTemperature (R180, R181); a negative reading is `Unsupported` (R187). -/
def formatTemperature (k : Nat) (m : TopDigitMode) (r : Int) : TempOutcome :=
  if r < 0 then .unsupported
  else if tempInteger k r < 100 then
    .ok (tempDigitsLow k r) { p0 := false, p1 := true, p2 := false, p3 := false }
  else
    .ok (tempDigitsHigh k m r) { p0 := false, p1 := false, p2 := true, p3 := false }

/-- SensorConfigure (44_controller_fsm.md R206). -/
def sensorConfigure (s : State) : State :=
  record (.sensorConfigure s.cfg.sensorCfg) { s with sensorConfigured := true }

/-- SensorStart (44_controller_fsm.md R206). -/
def sensorStart (s : State) : State := record .sensorStart { s with sensorPending := true }

/-- The sensor's next answer: the first one listed, or else a free value (log 6), of the reading's width
(log 28). -/
def sensorAnswer (s : State) : Int :=
  sensorValue s.cfg
    (match s.readings with
    | r :: _ => r
    | [] => Config.freeReading s.draws)

/-- `reading <- SensorRead()` (44_controller_fsm.md R206). -/
def sensorRead (s : State) : State :=
  record (.sensorRead (sensorAnswer s))
    { s with
      reading := sensorAnswer s
      sensorPending := false
      readings := s.readings.tail
      draws := s.draws + 1 }

end Sys2Proof.Machine
end

