-- ==== Sys2Proof/Machine/Controller.lean ====
section
/-! DEFINITION. The controller's program (spec/44_controller_fsm.md R200 to R210): what each control point
does and which control point is next; calling a loaded program's operations (spec/30_encoding.md R91); whose
turn it is. -/

namespace Sys2Proof.Machine

/-- What the statement at the control point is. -/
inductive Plan where
  /-- It sends this frame word; the state is the one with the control point moved on. -/
  | frame (w : FrameWord) (s : State)
  /-- It is these link primitives, from this state on. -/
  | prims (ps : List Prim) (s : State)
  /-- It is one other primitive or internal computation, with this result. -/
  | act (s : State)
  /-- It is refused. -/
  | refuse (r : Refusal)
  deriving DecidableEq, Repr

/-- A called operation is in progress. -/
def cpCalled (c : Cp) : Bool :=
  match c with
  | .sampler _ _ .script => true
  | .formatVoltage .script => true
  | .showVoltage _ .script => true
  | .temp _ true => true
  | _ => false

/-- The fixed program's control points at which no datapath register that a called SampleAverageVcc or
temperature iteration writes is live, so that the call disturbs nothing (log 12). -/
def cpBoundary (c : Cp) : Bool :=
  match c with
  | .i1 | .i2 | .i3 | .i4 | .i5 | .i6 | .i7 | .i8 | .i9 | .i10 | .i11 | .i12 => true
  | .sampler .select _ .single => true
  | .sampler .select _ .multi => true
  | .s3 => true
  | .m1 _ => true
  | .c1 => true
  | .temp .start false => true
  | .temp .again false => true
  | _ => false

/-- The fixed program's control point: where a call in progress returns to, or else the control point. -/
def homeCp (s : State) : Cp := if cpCalled s.cp then s.resume else s.cp

/-- The loaded program's call that is made next, if one is (log 11, log 12). -/
def readyCall (s : State) : Option Call :=
  match s.script with
  | [] => none
  | c :: _ =>
    if cpCalled s.cp then none
    else
      match c with
      | .vcc _ => if cpBoundary s.cp then some c else none
      | .temp => if cpBoundary s.cp then some c else none
      | _ => some c

/-- The head of the startup phase (R202 to R204): S1 or M1. The unlabelled line that asks for the variant is no
step of its own (log 27). -/
def startup (s : State) : State :=
  match s.cfg.variant with
  | .singleAverage => { s with cp := .sampler .select s.cfg.nSamplesSingle .single }
  | .multiRound => { s with cp := .m1 true }

/-- The round M1 turns to: 1 when the loop is entered, the next one after that (R200). -/
def nextRound (first : Bool) (s : State) : Nat := if first then 1 else s.round + 1

/-- M1, `for round in 1 .. N_ROUNDS`: the next round and M2, or C1 when no round is left (R200, R204). With
`N_ROUNDS` = 0: log 17; `round` after the loop: log 14. -/
def turnRound (first : Bool) (s : State) : State :=
  if nextRound first s ≤ s.cfg.nRounds then
    { s with round := nextRound first s, cp := .sampler .select s.cfg.nSamplesRound .multi }
  else { s with cp := .c1 }

/-- What follows a ShowVoltage: S3, M1, or the caller (R203, R204). -/
def afterVoltage (c : Caller) (s : State) : State :=
  match c with
  | .single => { s with cp := .s3 }
  | .multi => { s with cp := .m1 false }
  | .script => { s with cp := s.resume }

/-- T5: T1 again; in a loaded program's single iteration (30_encoding.md R91), the caller (R200, R207). -/
def afterTemp (called : Bool) (s : State) : State :=
  { s with cp := if called then s.resume else .temp .start false }

/-- The frame word of ShowDigits at a position (41_display_register.md R134). -/
def shownWord (p : Pos) (s : State) : FrameWord := digitWord p (quadAt s.dig p) (quadAt s.dp p)

/-- SampleAverageVcc(n) (42_voltage_sampler.md R153 to R156), one step a statement. The loop counter moves
with the control point (log 14). A count of 0 is refused (R154); DESIGN CHOICE: so is one above N_MAX, of which the
spec says only that it must not be (log 30). -/
def samplerPlan (st : SamplerStep) (n : Nat) (c : Caller) (s : State) : Plan :=
  match st with
  | .select =>
    if 1 ≤ n ∧ n ≤ s.cfg.maxSamples then .act { adcSelect s with cp := .sampler .clearAcc n c }
    else .refuse (.sampleCountOutOfRange n)
  | .clearAcc => .act { s with acc := 0, n := 1, cp := .sampler .start n c }
  | .start => .act { adcStart s with cp := .sampler .poll n c }
  | .poll => .act { adcPoll s with cp := .sampler (if s.adcDone then .clearDone else .poll) n c }
  | .clearDone => .act { adcClearDone s with cp := .sampler .read n c }
  | .read => .act { adcRead s with cp := .sampler .accumulate n c }
  | .accumulate => .act { accumulate s with cp := .sampler .settle n c }
  | .settle =>
    .act
      (if s.n < n then { delay s.cfg.tSample s with n := s.n + 1, cp := .sampler .start n c }
       else { delay s.cfg.tSample s with cp := .sampler .average n c })
  | .average => .act { average n s with cp := .sampler .scale n c }
  | .scale => .act (if s.avg = 0 then scaleVcc s else { scaleVcc s with cp := .formatVoltage c })

/-- One temperature iteration, T1 to T5 (R200, R207), one step a statement. -/
def tempPlan (st : TempStep) (called : Bool) (s : State) : Plan :=
  match st with
  | .start => .act { sensorStart s with cp := .temp .wait called }
  | .wait => .act { delay s.cfg.tConv s with cp := .temp .read called }
  | .read => .act { sensorRead s with cp := .temp .format called }
  | .format =>
    match formatTemperature s.cfg.fracBits s.cfg.topDigit s.reading with
    | .ok dig dp => .act { s with dig := dig, dp := dp, cp := .temp (.show .p0) called }
    | .unsupported => .act { s with cp := .temp .again called }
  | .show p =>
    match posNext p with
    | some q => .frame (shownWord p s) { s with cp := .temp (.show q) called }
    | none => .frame (shownWord p s) { s with cp := .temp .again called }
  | .again => .act (afterTemp called s)

/-- The statement at the control point (R200). -/
def cpPlan (s : State) : Plan :=
  match s.cp with
  | .i1 => .act { configurePins s with cp := .i2 }
  | .i2 => .prims (idlePrims .cs true) { s with cp := .i3 }
  | .i3 => .prims (idlePrims .clk false) { s with cp := .i4 }
  | .i4 => .prims (idlePrims .din s.cfg.dinIdle) { s with cp := .i5 }
  | .i5 => .act { adcEnable s with cp := .i6 }
  | .i6 => .frame (frameWord s.cfg.aShutdown s.cfg.vNormal) { s with cp := .i7 }
  | .i7 => .frame (frameWord s.cfg.aTest s.cfg.vTestOff) { s with cp := .i8 }
  | .i8 => .frame (frameWord s.cfg.aDecode s.cfg.vDecode) { s with cp := .i9 }
  | .i9 => .frame (frameWord s.cfg.aIntensity s.cfg.vIntensity) { s with cp := .i10 }
  | .i10 => .frame (frameWord s.cfg.aScanlimit s.cfg.vScanlimit) { s with cp := .i11 }
  | .i11 => .act { sensorConfigure s with cp := .i12 }
  | .i12 => .act (startup { s with phase := .calibratingVoltage })
  | .sampler st n c => samplerPlan st n c s
  | .formatVoltage c => .act { formatVoltage s with cp := .showVoltage .p0 c }
  | .showVoltage p c =>
    match posNext p with
    | some q => .frame (shownWord p s) { s with cp := .showVoltage q c }
    | none => .frame (shownWord p s) (afterVoltage c s)
  | .s3 => .act { delay s.cfg.tDwell s with cp := .c1 }
  | .m1 first => .act (turnRound first s)
  | .c1 => .act { s with phase := .displayingTemperature, cp := .temp .start false }
  | .temp st called => tempPlan st called s

/-- A call of a loaded program (30_encoding.md R91), `s` being the state without it. A position outside 0..3
is refused (41_display_register.md R141). -/
def callPlan (c : Call) (s : State) : Plan :=
  match c with
  | .wr a v => .frame (frameWord a v) s
  | .dig p v dp =>
    match posOfNat p with
    | some q => .frame (digitWord q v dp) s
    | none => .refuse (.positionOutOfRange p)
  | .vcc n => samplerPlan .select n .script { s with resume := s.cp }
  | .temp => tempPlan .start true { s with resume := s.cp }
  | .delay t => .act (delay t s)

/-- What the controller does next. -/
def plan (s : State) : Plan :=
  match readyCall s with
  | some c => callPlan c { s with script := s.script.tail }
  | none => cpPlan s

/-- The frame word the controller sends next, if it sends one: what the model fetches (log 11). -/
def fetch (s : State) : Option FrameWord :=
  match plan s with
  | .frame w _ => some w
  | _ => none

/-- Performs link primitives: all of them, or the first with the others left in `rest` (log 2). -/
def perform (whole : Bool) (ps : List Prim) (s : State) : State :=
  if whole then runPrims ps { s with rest := [] }
  else
    match ps with
    | [] => s
    | p :: qs => applyPrim { s with rest := qs } p

/-- Whose turn it is, and the state without that turn. With no turn listed the ADC completes a conversion in
flight or does not, as a free value says (log 3), and the controller performs one primitive or internal
computation (10_state.md R22). -/
def takeTurn (s : State) : Turn × State :=
  match s.turns with
  | t :: ts => (t, { s with turns := ts })
  | [] =>
    if s.adcBusy then
      match Config.freeAdc s.draws with
      | some c => (.adc c, { s with draws := s.draws + 1 })
      | none => (.prim, { s with draws := s.draws + 1 })
    else (.prim, s)

/-- The state whose next step sends the frame `w` as a loaded program's `WR` (log 11). -/
def loadWord (w : FrameWord) (s : State) : State :=
  { s with
    script := .wr (wordAddr w) (wordValue w) :: s.script
    turns := .run :: s.turns
    rest := []
    cp := homeCp s }

end Sys2Proof.Machine
end

