-- ==== Sys2Proof/Machine/Control.lean ====
section
/-! DEFINITION. The meanings of the five control-register writes (spec/41_display_register.md R135 to R139;
spec/30_encoding.md R84, R85). -/

namespace Sys2Proof.Machine

/-- WR_DECODE (R137). -/
def execWrDecode (v : Byte) (s : State) : Host.Outcome State Fault Refusal :=
  .next (writeCommand s.cfg.aDecode v s)

/-- WR_INTENSITY (R138). -/
def execWrIntensity (v : Byte) (s : State) : Host.Outcome State Fault Refusal :=
  .next (writeCommand s.cfg.aIntensity v s)

/-- WR_SCANLIMIT (R139). -/
def execWrScanlimit (v : Byte) (s : State) : Host.Outcome State Fault Refusal :=
  .next (writeCommand s.cfg.aScanlimit v s)

/-- WR_SHUTDOWN (R135). -/
def execWrShutdown (v : Byte) (s : State) : Host.Outcome State Fault Refusal :=
  .next (writeCommand s.cfg.aShutdown v s)

/-- WR_TEST (R136). -/
def execWrTest (v : Byte) (s : State) : Host.Outcome State Fault Refusal :=
  .next (writeCommand s.cfg.aTest v s)

end Sys2Proof.Machine
end

