-- ==== Sys2Proof/Machine/Digits.lean ====
section
/-! DEFINITION. The meanings of the four digit writes: SetDigit at positions 0, 3, 1, 2
(spec/41_display_register.md R133; spec/30_encoding.md R85). -/

namespace Sys2Proof.Machine

/-- WR_DIG_P0: SetDigit(0, v, dp), physical digit register 1. -/
def execWrDigP0 (v : Byte) (dp : Bool) (s : State) : Host.Outcome State Fault Refusal :=
  .next (setDigit .p0 v dp s)

/-- WR_DIG_P3: SetDigit(3, v, dp), physical digit register 2. -/
def execWrDigP3 (v : Byte) (dp : Bool) (s : State) : Host.Outcome State Fault Refusal :=
  .next (setDigit .p3 v dp s)

/-- WR_DIG_P1: SetDigit(1, v, dp), physical digit register 3. -/
def execWrDigP1 (v : Byte) (dp : Bool) (s : State) : Host.Outcome State Fault Refusal :=
  .next (setDigit .p1 v dp s)

/-- WR_DIG_P2: SetDigit(2, v, dp), physical digit register 4. -/
def execWrDigP2 (v : Byte) (dp : Bool) (s : State) : Host.Outcome State Fault Refusal :=
  .next (setDigit .p2 v dp s)

end Sys2Proof.Machine
end

