-- ==== Sys2Proof/Machine/Dispatch.lean ====
section
/-! DEFINITION. One arm per command: its meaning. -/

namespace Sys2Proof.Machine

def exec (i : Instr) (s : State) : Host.Outcome State Fault Refusal :=
  match i with
  | .wrDigP0 v dp => Sys2Proof.Machine.execWrDigP0 v dp s
  | .wrDigP3 v dp => Sys2Proof.Machine.execWrDigP3 v dp s
  | .wrDigP1 v dp => Sys2Proof.Machine.execWrDigP1 v dp s
  | .wrDigP2 v dp => Sys2Proof.Machine.execWrDigP2 v dp s
  | .wrDecode v => Sys2Proof.Machine.execWrDecode v s
  | .wrIntensity v => Sys2Proof.Machine.execWrIntensity v s
  | .wrScanlimit v => Sys2Proof.Machine.execWrScanlimit v s
  | .wrShutdown v => Sys2Proof.Machine.execWrShutdown v s
  | .wrTest v => Sys2Proof.Machine.execWrTest v s

end Sys2Proof.Machine
end

