-- ==== Sys2Proof/Machine/Run.lean ====
section
/-! DEFINITION. The controller's turn: one primitive or internal computation of the statement at the control
point, or the statement whole, its frames then run as the commands they decode to. -/

namespace Sys2Proof.Machine

/-- Sends a frame whole: as the meaning of the command it decodes to (30_encoding.md R86), or, where it is
no command of the block (R87), as the bare WriteCommand, which takes any address and value
(40_serial_link.md R115). -/
def sendWhole (w : FrameWord) (s : State) : Host.Outcome State Fault Refusal :=
  match decode s.cfg w with
  | some i => exec i s
  | none => .next (writeCommand (wordAddr w) (wordValue w) s)

/-- The controller's turn, to the end of its operation (`whole`) or for one primitive (log 2). In phase
`Faulted` it has no step (60_exceptions.md R251; log 13). -/
def controller (whole : Bool) (s : State) : Host.Outcome State Fault Refusal :=
  if s.phase = .faulted then .fault (.stopped s.fault)
  else
    match s.rest with
    | p :: ps => .next (perform whole (p :: ps) s)
    | [] =>
      match plan s with
      | .frame w t => if whole then sendWhole w t else .next (perform false (framePrims w) t)
      | .prims ps t => .next (perform whole ps t)
      | .act t => .next t
      | .refuse r => .refused r

/-- One agent's step. -/
def runTurn (t : Turn) (s : State) : Host.Outcome State Fault Refusal :=
  match t with
  | .run => controller true s
  | .prim => controller false s
  | .adc c => .next (adcComplete c s)
  | .reset => .next (hardReset s)

end Sys2Proof.Machine
end

