-- ==== Sys2Proof/Machine/Receiver.lean ====
section
/-! DEFINITION. What the display shows: the Code B glyphs, the segment map, the control registers' effect and
`Shown` (spec/45_display_receiver.md R233 to R241), and the receiver as a function of the trace's line events
(R240). The block reads none of this (spec/40_serial_link.md R116). -/

namespace Sys2Proof.Machine

/-- The Code B glyph of a code; blank is a space (R233). -/
def glyph (code : BitVec 4) : Char :=
  match code.toNat with
  | 0 => '0'
  | 1 => '1'
  | 2 => '2'
  | 3 => '3'
  | 4 => '4'
  | 5 => '5'
  | 6 => '6'
  | 7 => '7'
  | 8 => '8'
  | 9 => '9'
  | 10 => '-'
  | 11 => 'E'
  | 12 => 'H'
  | 13 => 'L'
  | 14 => 'P'
  | _ => ' '

/-- The segment byte of a code: bit 6 = A down to bit 0 = G (R234). -/
def segmentByte (code : BitVec 4) : Byte :=
  match code.toNat with
  | 0 => 0x7E
  | 1 => 0x30
  | 2 => 0x6D
  | 3 => 0x79
  | 4 => 0x33
  | 5 => 0x5B
  | 6 => 0x5F
  | 7 => 0x70
  | 8 => 0x7F
  | 9 => 0x7B
  | 10 => 0x01
  | 11 => 0x4F
  | 12 => 0x37
  | 13 => 0x0E
  | 14 => 0x67
  | _ => 0x00

/-- The sixteen codes. -/
def codes : List (BitVec 4) := [0, 1, 2, 3, 4, 5, 6, 7, 8, 9, 10, 11, 12, 13, 14, 15]

/-- The character whose segments are the lit ones, decimal point aside; none for a raw pattern that is no
row of R234's table (log 19). -/
def segmentChar (lit : Byte) : Option Char :=
  (codes.find? fun code => segmentByte code == lit &&& 0x7F).map glyph

/-- The segments and decimal point a scanned digit register drives: Code B where the decode-mode register
says so, its own bits otherwise (R235, R236). -/
def digitSegments (c : Config) (r : Rx) (k : Byte) : Byte :=
  let b := r.reg k
  if (r.reg c.aDecode).getLsbD (k.toNat - 1) then segmentByte (b.setWidth 4) ||| (b &&& 0x80) else b

/-- What is lit at a logical position (R236 to R239). Shutdown and display test together: log 18. -/
def litSegments (c : Config) (r : Rx) (p : Pos) : Byte :=
  let k := physAddr p
  let scanned := k.toNat ≤ (r.reg c.aScanlimit &&& 7).toNat + 1
  let normal := (r.reg c.aShutdown).getLsbD 0
  let test := (r.reg c.aTest).getLsbD 0
  if !scanned then 0x00
  else if normal then (if test then 0xFF else digitSegments c r k)
  else if test && Config.freeTestBeatsShutdown then 0xFF
  else 0x00

/-- The brightness step 0..15: bits 3..0 of the intensity register, bits 7..4 ignored (10_state.md R39). It is
no part of what is lit (R239). -/
def brightness (c : Config) (r : Rx) : BitVec 4 := (r.reg c.aIntensity).setWidth 4

/-- The character at a position, followed by `.` when its decimal point is lit (R240). -/
def shownDigit (c : Config) (r : Rx) (p : Pos) : Option (List Char) :=
  (segmentChar (litSegments c r p)).map fun ch => if (litSegments c r p).getLsbD 7 then [ch, '.'] else [ch]

/-- `Shown` (R240), in reading order; none where a position shows no character of R234's table. -/
def shown (c : Config) (r : Rx) : Option (List Char) :=
  match shownDigit c r .p0, shownDigit c r .p1, shownDigit c r .p2, shownDigit c r .p3 with
  | some a, some b, some d, some e => some (a ++ b ++ d ++ e)
  | _, _, _, _ => none

/-- The wires and the chip at their end. -/
structure Wire where
  cs : Line
  clk : Line
  din : Line
  rx : Rx
  deriving DecidableEq, Repr

/-- The wires of a state. -/
def State.wire (s : State) : Wire := { cs := s.cs, clk := s.clk, din := s.din, rx := s.rx }

/-- What a port event does to the wires: only a line event does anything (R240). -/
def wireEvent (w : Wire) (e : Event) : Wire :=
  match e with
  | .line sig lvl =>
    let r := w.rx.onLine w.cs w.clk w.din sig lvl
    match sig with
    | .cs => { w with cs := .driven lvl, rx := r }
    | .clk => { w with clk := .driven lvl, rx := r }
    | .din => { w with din := .driven lvl, rx := r }
  | _ => w

/-- The wires after some events (R240). -/
def replay (w : Wire) (es : List Event) : Wire := es.foldl wireEvent w

end Sys2Proof.Machine
end

