-- ==== Sys2Proof/Safety.lean ====
section
/-! DEFINITION. What counts as a safe run, and the terms in which statements about the machine are made:
the events of a frame, a frame's effect, and the invariants of the controller, the lines, the trace, the
sampler and the register file. -/

namespace Sys2Proof.Machine

/-! The events of a frame (spec/40_serial_link.md R113, R115). -/

/-- The events of SendBit(b), `t` being `T_LINK` (R113). -/
def bitEvents (t : Micros) (b : Bool) : List Event :=
  [.line .din b, .delay t, .line .clk true, .delay t, .line .clk false, .delay t]

/-- The events of WriteCommand with frame word `w` (R115). -/
def frameEvents (t : Micros) (w : FrameWord) : List Event :=
  [.line .cs false, .delay t] ++ frameBits.flatMap (fun k : Fin 16 => bitEvents t (w.getLsbD k.val)) ++
    [.line .cs true, .delay t]

/-- The line events of a trace. -/
def lineEvents (es : List Event) : List Event :=
  es.filter fun e => match e with | .line _ _ => true | _ => false

/-- The levels the data line is set to, in order. -/
def dinLevels (es : List Event) : List Bool :=
  es.filterMap fun e => match e with | .line .din b => some b | _ => none

/-- How many rising edges of CLK some events hold, `clk` being its level before them. -/
def clkRises (clk : Line) : List Event → Nat
  | [] => 0
  | .line .clk lvl :: es => (if lvl && clk == .driven false then 1 else 0) + clkRises (.driven lvl) es
  | _ :: es => clkRises clk es

/-- The controller stands at a statement of the fixed program: no fault, no operation in progress, no loaded
program. -/
def atStatement (s : State) : Bool :=
  s.phase != .faulted && s.rest.isEmpty && s.script.isEmpty

/-- `k` steps of the machine (Host/Core.lean). -/
def runSteps (k : Nat) (s : State) : Host.Outcome State Fault Refusal := Sys2Proof.core.run k s

/-- `s` with the controller's turns next: `k` of them, and then `ts`. -/
def withRuns (k : Nat) (ts : List Turn) (s : State) : State :=
  { s with turns := List.replicate k .run ++ ts }

/-- The registers Init leaves the chip's control registers with (spec/45_display_receiver.md R236 to R239):
normal operation, test off, four digits decoded, four digits scanned. -/
def displayOn (c : Config) (r : Rx) : Bool :=
  (r.reg c.aShutdown).getLsbD 0 && !(r.reg c.aTest).getLsbD 0 && (r.reg c.aDecode &&& 0x0F) == 0x0F &&
    decide (3 ≤ (r.reg c.aScanlimit &&& 7).toNat)

/-- The characters of a digit 0..9 and its decimal point (spec/45_display_receiver.md R233, R240). -/
def digitText (v : Byte) (dp : Bool) : List Char :=
  if dp then [Char.ofNat (48 + v.toNat), '.'] else [Char.ofNat (48 + v.toNat)]

/-- The lines are at WriteCommand's precondition: CS = 1, CLK = 0, DIN driven (R111, R115). -/
def linesIdle (s : State) : Bool :=
  s.cs == .driven true && s.clk == .driven false && s.din != .z

/-- All three lines are driven outputs. -/
def linesDriven (s : State) : Bool :=
  s.cs != .z && s.clk != .z && s.din != .z

/-- The effect of a frame sent from idle lines (R115; spec/45_display_receiver.md R230 to R232). -/
def afterFrame (w : FrameWord) (s : State) : State :=
  { s with
    frame := w
    bit := 0
    cs := .driven true
    clk := .driven false
    din := .driven (w.getLsbD 0)
    events := (frameEvents s.cfg.tLink w).reverse ++ s.events
    rx :=
      { s.rx with
        shift := w
        count := 16
        cells := Memory.write s.rx.cells (wordAddr w).toNat (wordValue w) } }

/-- The effect of the four frames of ShowDigits (spec/41_display_register.md R134). -/
def afterDigits (dig : Quad Byte) (dp : Quad Bool) (s : State) : State :=
  afterFrame (digitWord .p3 dig.p3 dp.p3)
    (afterFrame (digitWord .p2 dig.p2 dp.p2)
      (afterFrame (digitWord .p1 dig.p1 dp.p1) (afterFrame (digitWord .p0 dig.p0 dp.p0) s)))

/-! Invariants. -/

/-- The phase a control point of the fixed program belongs to (spec/44_controller_fsm.md R200). -/
def cpPhase (c : Cp) : Phase :=
  match c with
  | .i1 | .i2 | .i3 | .i4 | .i5 | .i6 | .i7 | .i8 | .i9 | .i10 | .i11 | .i12 => .init
  | .sampler _ _ _ => .calibratingVoltage
  | .formatVoltage _ => .calibratingVoltage
  | .showVoltage _ _ => .calibratingVoltage
  | .s3 => .calibratingVoltage
  | .m1 _ => .calibratingVoltage
  | .c1 => .calibratingVoltage
  | .temp _ _ => .displayingTemperature

/-- The phase is the control point's, a fault is recorded exactly in phase `Faulted`, and a call in progress
returns to a boundary of the fixed program (spec/10_state.md R20, R21, R33). -/
def controlOk (s : State) : Bool :=
  (s.phase == .faulted || s.phase == cpPhase (homeCp s)) &&
  (s.fault.isSome == (s.phase == .faulted)) &&
  (!cpCalled s.cp || cpBoundary s.resume)

/-- A two's complement number of `READING_WIDTH` bits, -2^(w-1) <= r < 2^(w-1) (spec/00_scope.md R14). -/
def readingFits (c : Config) (r : Int) : Bool :=
  decide (-(2 ^ c.readingWidth) ≤ 2 * r ∧ 2 * r < 2 ^ c.readingWidth)

/-- The answers the block holds have their widths: the sample and the ADC result `ADC_BITS`, the reading
`READING_WIDTH` (spec/10_state.md R23, R31, R32). -/
def valuesOk (s : State) : Bool :=
  decide (s.sample ≤ s.cfg.maxCode) && decide (s.adcResult ≤ s.cfg.maxCode) && readingFits s.cfg s.reading

/-- The sampler's counter and sums stay in their ranges (spec/42_voltage_sampler.md R154, R155, R159). -/
def samplerOk (s : State) : Bool :=
  match s.cp with
  | .sampler st n _ =>
    match st with
    | .select => true
    | .clearAcc => decide (1 ≤ n ∧ n ≤ s.cfg.maxSamples)
    | .settle => decide (1 ≤ s.n ∧ s.n ≤ n ∧ n ≤ s.cfg.maxSamples ∧ s.acc.toNat ≤ s.cfg.maxCode * s.n)
    | .average => decide (1 ≤ n ∧ n ≤ s.cfg.maxSamples ∧ s.acc.toNat ≤ s.cfg.maxCode * n)
    | .scale => decide (1 ≤ n ∧ n ≤ s.cfg.maxSamples ∧ s.avg.toNat ≤ s.cfg.maxCode)
    | _ => decide (1 ≤ s.n ∧ s.n ≤ n ∧ n ≤ s.cfg.maxSamples ∧ s.acc.toNat + s.cfg.maxCode ≤ s.cfg.maxCode * s.n)
  | _ => true

/-- What Init has established of the lines by a control point, once the operation in progress is done
(spec/70_reset_and_hazards.md R282, spec/40_serial_link.md R111). -/
def linesOk (s : State) : Bool :=
  let t := runPrims s.rest s
  match homeCp s with
  | .i1 => true
  | .i2 => linesDriven t
  | .i3 => linesDriven t && t.cs == .driven true
  | .i4 => linesDriven t && t.cs == .driven true && t.clk == .driven false
  | _ => linesIdle t

/-- The control points up to and including I5 (spec/44_controller_fsm.md R200). -/
def cpUpToI5 (c : Cp) : Bool :=
  match c with
  | .i1 | .i2 | .i3 | .i4 | .i5 => true
  | _ => false

/-- The control points up to and including I11. -/
def cpUpToI11 (c : Cp) : Bool :=
  match c with
  | .i1 | .i2 | .i3 | .i4 | .i5 | .i6 | .i7 | .i8 | .i9 | .i10 | .i11 => true
  | _ => false

/-- A statement of SampleAverageVcc after the first. -/
def cpSelected (c : Cp) : Bool :=
  match c with
  | .sampler .select _ _ => false
  | .sampler _ _ _ => true
  | _ => false

/-- The ADC is enabled after I5, the sensor configured after I11, and the reference selected from a
SampleAverageVcc's first statement on (spec/70_reset_and_hazards.md R282). -/
def portsOk (s : State) : Bool :=
  (cpUpToI5 (homeCp s) || s.adcEnabled) &&
  (cpUpToI11 (homeCp s) || s.sensorConfigured) &&
  (!cpSelected s.cp || s.adcSel == .bandgapVsVcc)

/-- A link line event. -/
def isLine (e : Event) : Bool :=
  match e with
  | .line _ _ => true
  | _ => false

/-- A delay of at least 1 µs. -/
def isDelay (e : Event) : Bool :=
  match e with
  | .delay t => decide (1 ≤ t)
  | _ => false

/-- In a trace, newest event first: every line event but a newest one is followed at once by a delay of at
least 1 µs (spec/40_serial_link.md R112, spec/70_reset_and_hazards.md R286). -/
def spaced : List Event → Bool
  | [] => true
  | [_] => true
  | e :: d :: es => (!isLine d || isDelay e) && spaced (d :: es)

/-- In a list of primitives every line event is followed at once by `Delay(T_LINK)`. -/
def primsSpaced : List Prim → Bool
  | [] => true
  | .line _ _ :: .linkDelay :: ps => primsSpaced ps
  | .dataBit _ :: .linkDelay :: ps => primsSpaced ps
  | .load _ :: ps => primsSpaced ps
  | .linkDelay :: ps => primsSpaced ps
  | _ => false

/-- A line event that is still the newest one has its delay still to come. -/
def newestOk (es : List Event) (rest : List Prim) : Bool :=
  match es with
  | .line _ _ :: _ => rest.head? == some .linkDelay
  | _ => true

/-- The link's timing holds so far and will. -/
def linkSpaced (s : State) : Bool :=
  decide (1 ≤ s.cfg.tLink) && spaced s.events && newestOk s.events s.rest && primsSpaced s.rest

/-- The register file is in its canonical form. -/
def rxCanonical (s : State) : Bool := Memory.wf s.rx.cells

/-- A safe state: every invariant holds. -/
def Safe (s : State) : Bool :=
  controlOk s && valuesOk s && samplerOk s && linesOk s && portsOk s && linkSpaced s && rxCanonical s

end Sys2Proof.Machine
end

