-- ==== Sys2Proof/Certificates/Slice0/Obligations.lean ====
section
/-! DEFINITION. The statements about the machine, for the provers. -/

open Sys2Proof Sys2Proof.Machine

/-! Encodings. -/

/-- 30_encoding.md R85, R86, R87: words written out from the command map. -/
def Obligations.CommandMapWordsDecode : Prop :=
  decodeTableWord 16 0x0183 = some (.wrDigP0 3 true) ∧
  decodeTableWord 16 0x0204 = some (.wrDigP3 4 false) ∧
  decodeTableWord 16 0x0385 = some (.wrDigP1 5 true) ∧
  decodeTableWord 16 0x0400 = some (.wrDigP2 0 false) ∧
  decodeTableWord 16 0x090F = some (.wrDecode 0x0F) ∧
  decodeTableWord 16 0x0A08 = some (.wrIntensity 0x08) ∧
  decodeTableWord 16 0x0B03 = some (.wrScanlimit 0x03) ∧
  decodeTableWord 16 0x0C01 = some (.wrShutdown 0x01) ∧
  decodeTableWord 16 0x0F00 = some (.wrTest 0x00) ∧
  decodeTableWord 16 0x0583 = none

/-- 30_encoding.md R85, R86: no bit of an encoding is dropped. Instruction operands: log 20. -/
def Obligations.DecodeInvertsEncode : Prop :=
  ∀ (c : Config) (i : Instr), c.addressesOk = true → i.WellFormed = true → decode c (encode c i) = some i

/-- 30_encoding.md R85, R86: a command is decoded from its own encoding only, and every command decoded is well
formed. A digit write's operands are read from bits 6..0 and 7: log 20. -/
def Obligations.EncodeInvertsDecode : Prop :=
  ∀ (c : Config) (w : FrameWord) (i : Instr), decode c w = some i → encode c i = w ∧ i.WellFormed = true

/-- 30_encoding.md R86, R87: the words of no command are those whose address is none of the nine. -/
def Obligations.DecodeRefusesExactlyTheUnusedAddresses : Prop :=
  ∀ (c : Config) (w : FrameWord),
    decode c w = none ↔ wordAddr w ∉ [0x01, 0x02, 0x03, (0x04 : Byte)] ++ c.controlAddresses

/-- 41_display_register.md R131. -/
def Obligations.PhysAddrIsABijectionOntoOneToFour : Prop :=
  physAddr .p0 = 1 ∧ physAddr .p1 = 3 ∧ physAddr .p2 = 4 ∧ physAddr .p3 = 2 ∧
  (∀ p q, physAddr p = physAddr q → p = q) ∧
  (∀ a : Byte, (∃ p, physAddr p = a) ↔ 1 ≤ a.toNat ∧ a.toNat ≤ 4) ∧
  logicalPos 1 = some .p0 ∧ logicalPos 2 = some .p3 ∧ logicalPos 3 = some .p1 ∧ logicalPos 4 = some .p2

/-- 41_display_register.md R132: the digit byte, bit by bit, for every digit value. -/
def Obligations.PackDigitSetsBitSevenForThePoint : Prop :=
  ∀ (v : Byte) (dp : Bool),
    (∀ i, i < 7 → (packDigit v dp).getLsbD i = v.getLsbD i) ∧
    (packDigit v dp).getLsbD 7 = (v.getLsbD 7 || dp) ∧
    (v.toNat ≤ 9 → (packDigit v dp).extractLsb' 4 3 = 0 ∧ (packDigit v dp).toNat % 16 = v.toNat) ∧
    (128 ≤ v.toNat → (packDigit v dp).getLsbD 7 = true)

/-! The serial link. -/

/-- 40_serial_link.md R110: SetLine from any state; nothing of the block but the line and the trace
changes. What it does on a line that is not yet a driven output is the model's choice: log 7. -/
def Obligations.SetLineDrivesOneLineAndRecordsIt : Prop :=
  ∀ (sig : Sig) (lvl : Bool) (s : State),
    let t := setLine sig lvl s
    t.line sig = .driven lvl ∧ (∀ other, other ≠ sig → t.line other = s.line other) ∧
    t.trace = s.trace ++ [.line sig lvl] ∧
    t = { s with cs := t.cs, clk := t.clk, din := t.din, events := t.events, rx := t.rx }

/-- 40_serial_link.md R113: SendBit's six events, and the lines it ends with. -/
def Obligations.SendBitPulsesTheClockOnce : Prop :=
  ∀ (b : Bool) (s : State), s.cs = .driven false → s.clk = .driven false →
    let t := sendBit b s
    t.trace = s.trace ++
      [.line .din b, .delay s.cfg.tLink, .line .clk true, .delay s.cfg.tLink, .line .clk false, .delay s.cfg.tLink] ∧
    t.cs = .driven false ∧ t.clk = .driven false ∧ t.din = .driven b

/-- 40_serial_link.md R114: SendByte, most significant bit first, always eight clock pulses. -/
def Obligations.SendByteSendsEightBits : Prop :=
  ∀ (x : Byte) (s : State), s.cs = .driven false → s.clk = .driven false →
    let t := sendByte x s
    t.trace = s.trace ++ [7, 6, 5, 4, 3, 2, 1, 0].flatMap (fun i => bitEvents s.cfg.tLink (x.getLsbD i)) ∧
    t.cs = .driven false ∧ t.clk = .driven false ∧ t.din = .driven (x.getLsbD 0)

/-- 40_serial_link.md R115: WriteCommand's events and lines from any state (without R115's precondition: log 16),
and from idle lines sixteen rising edges of CLK. On lines that are not yet driven outputs: log 7. -/
def Obligations.WriteCommandFramesTwoBytes : Prop :=
  ∀ (a v : Byte) (s : State),
    let t := writeCommand a v s
    let es := frameEvents s.cfg.tLink (frameWord a v)
    t.trace = s.trace ++ es ∧ es.length = 100 ∧ (lineEvents es).length = 50 ∧
    es.head? = some (.line .cs false) ∧ es[98]? = some (.line .cs true) ∧
    (es.filter fun e => e == .line .clk true).length = 16 ∧ (linesIdle s = true → clkRises s.clk es = 16) ∧
    t.cs = .driven true ∧ t.clk = .driven false ∧ t.din = .driven (v.getLsbD 0)

/-- 20_memory.md R63 (and R64 for the order of the two bytes): the levels of the data line in what WriteCommand
adds to the trace. -/
def Obligations.FrameBitsGoMostSignificantFirst : Prop :=
  ∀ (a v : Byte) (s : State), linesIdle s = true →
    ∃ es, (writeCommand a v s).trace = s.trace ++ es ∧ dinLevels es =
      [7, 6, 5, 4, 3, 2, 1, 0].map (fun i => a.getLsbD i) ++ [7, 6, 5, 4, 3, 2, 1, 0].map (fun i => v.getLsbD i)

/-- 45_display_receiver.md R231: a frame of other than 16 bits leaves every register the free value of a new
epoch; one of 16 writes one register. -/
def Obligations.LatchWritesOnlySixteenBitFrames : Prop :=
  ∀ (r : Rx) (k d : Bool),
    (r.count ≠ 16 →
      ∀ a, (r.onLine (.driven false) (.driven k) (.driven d) .cs true).reg a = Config.freeReg (r.epoch + 1) a) ∧
    (r.count = 16 →
      (r.onLine (.driven false) (.driven k) (.driven d) .cs true).reg (wordAddr r.shift) = wordValue r.shift ∧
      ∀ a, a ≠ wordAddr r.shift →
        (r.onLine (.driven false) (.driven k) (.driven d) .cs true).reg a = r.reg a)

/-! The commands. -/

/-- 41_display_register.md R133: the four digit writes complete in every state, each with its frame. In a state
without WriteCommand's precondition: log 16; on lines not yet driven: log 7. -/
def Obligations.DigitWritesSendTheirFrames : Prop :=
  ∀ (v : Byte) (dp : Bool) (s : State),
    (∃ t, exec (.wrDigP0 v dp) s = .next t ∧
      t.trace = s.trace ++ frameEvents s.cfg.tLink (frameWord 0x01 (packDigit v dp))) ∧
    (∃ t, exec (.wrDigP1 v dp) s = .next t ∧
      t.trace = s.trace ++ frameEvents s.cfg.tLink (frameWord 0x03 (packDigit v dp))) ∧
    (∃ t, exec (.wrDigP2 v dp) s = .next t ∧
      t.trace = s.trace ++ frameEvents s.cfg.tLink (frameWord 0x04 (packDigit v dp))) ∧
    (∃ t, exec (.wrDigP3 v dp) s = .next t ∧
      t.trace = s.trace ++ frameEvents s.cfg.tLink (frameWord 0x02 (packDigit v dp)))

/-- 41_display_register.md R135 to R139: the five control writes complete in every state, each with its frame. In
a state without WriteCommand's precondition: log 16; on lines not yet driven: log 7. -/
def Obligations.ControlWritesSendTheirFrames : Prop :=
  ∀ (v : Byte) (s : State),
    (∃ t, exec (.wrShutdown v) s = .next t ∧
      t.trace = s.trace ++ frameEvents s.cfg.tLink (frameWord s.cfg.aShutdown v)) ∧
    (∃ t, exec (.wrTest v) s = .next t ∧
      t.trace = s.trace ++ frameEvents s.cfg.tLink (frameWord s.cfg.aTest v)) ∧
    (∃ t, exec (.wrDecode v) s = .next t ∧
      t.trace = s.trace ++ frameEvents s.cfg.tLink (frameWord s.cfg.aDecode v)) ∧
    (∃ t, exec (.wrIntensity v) s = .next t ∧
      t.trace = s.trace ++ frameEvents s.cfg.tLink (frameWord s.cfg.aIntensity v)) ∧
    (∃ t, exec (.wrScanlimit v) s = .next t ∧
      t.trace = s.trace ++ frameEvents s.cfg.tLink (frameWord s.cfg.aScanlimit v))

/-- 40_serial_link.md R115 and 45_display_receiver.md 1 (the spec's general knowledge): every command from
idle lines, its whole next state. -/
def Obligations.CommandFromIdleLinesHasExactlyItsFrame : Prop :=
  ∀ (i : Instr) (s : State), linesIdle s = true →
    exec i s = .next
      { s with
        frame := encode s.cfg i
        bit := 0
        cs := .driven true
        clk := .driven false
        din := .driven ((encode s.cfg i).getLsbD 0)
        events := (frameEvents s.cfg.tLink (encode s.cfg i)).reverse ++ s.events
        rx :=
          { s.rx with
            shift := encode s.cfg i
            count := 16
            cells := Memory.write s.rx.cells (wordAddr (encode s.cfg i)).toNat (wordValue (encode s.cfg i)) } }

/-- The frame of the nine commands in every state: what they leave unchanged (40_serial_link.md R115 to R117,
45_display_receiver.md R232). In a state without WriteCommand's precondition that is the model's choice: log 16,
on lines not yet driven log 7. The receiver is the spec's general knowledge: log 23. -/
def Obligations.CommandsChangeOnlyTheLinkAndOneRegister : Prop :=
  ∀ (i : Instr) (s t : State), exec i s = .next t →
    t.phase = s.phase ∧ t.cp = s.cp ∧ t.rest = s.rest ∧ t.acc = s.acc ∧ t.n = s.n ∧ t.sample = s.sample ∧
    t.avg = s.avg ∧ t.vccScaled = s.vccScaled ∧ t.round = s.round ∧ t.reading = s.reading ∧ t.dig = s.dig ∧
    t.dp = s.dp ∧ t.adcEnabled = s.adcEnabled ∧ t.adcSel = s.adcSel ∧ t.adcBusy = s.adcBusy ∧
    t.adcDone = s.adcDone ∧ t.adcResult = s.adcResult ∧ t.sensorConfigured = s.sensorConfigured ∧
    t.sensorPending = s.sensorPending ∧ t.fault = s.fault ∧ t.cfg = s.cfg ∧ t.script = s.script ∧
    t.resume = s.resume ∧ t.turns = s.turns ∧ t.readings = s.readings ∧ t.draws = s.draws ∧
    (linesIdle s = true →
      t.rx.reg (wordAddr (encode s.cfg i)) = wordValue (encode s.cfg i) ∧
      ∀ a, a ≠ wordAddr (encode s.cfg i) → t.rx.reg a = s.rx.reg a)

/-- 40_serial_link.md R117 and 20_memory.md R69: the same command twice sends its frame's events twice and
leaves every display register as once. The receiver is the spec's general knowledge: log 23. -/
def Obligations.SameCommandTwiceSendsTheSameFrame : Prop :=
  ∀ (i : Instr) (s t u : State), linesIdle s = true → exec i s = .next t → exec i t = .next u →
    linesIdle t = true ∧
    t.trace = s.trace ++ frameEvents s.cfg.tLink (encode s.cfg i) ∧
    u.trace = t.trace ++ frameEvents s.cfg.tLink (encode s.cfg i) ∧ ∀ a, u.rx.reg a = t.rx.reg a

/-! The step. -/

/-- Where the statement at the control point sends a frame word that decodes to `i`, the controller's step is
`exec i` of the state with the control point (or the loaded program) moved on, and nothing else. Log 2. -/
def Obligations.StepRunsTheDecodedCommand : Prop :=
  ∀ (s u t : State) (w : FrameWord) (i : Instr),
    takeTurn s = (.run, u) → u.phase ≠ .faulted → u.rest = [] → plan u = .frame w t → decode t.cfg w = some i →
    step s = exec i t ∧ t = { u with cp := t.cp, script := t.script }

/-- A loaded frame word is what the next step runs (log 11), and the state is otherwise as it was. -/
def Obligations.LoadedWordRunsNext : Prop :=
  ∀ (s : State) (nbits w : Nat) (i : Instr),
    controlOk s = true → s.phase ≠ .faulted → decode s.cfg (tableWord nbits w) = some i →
    step (s.withFetchWord nbits w) = exec i { s with cp := homeCp s, rest := [] }

/-- 40_serial_link.md R115: "Any `a` and `v` in 0..255 are accepted", also where the word is no command's. In a
state without WriteCommand's precondition: log 16; on lines not yet driven: log 7. -/
def Obligations.RawFrameOfAnyAddressIsSent : Prop :=
  ∀ (s : State) (a v : Byte) (cs : List Call) (ts : List Turn),
    s.phase ≠ .faulted → s.rest = [] → cpCalled s.cp = false →
    s.script = .wr a v :: cs → s.turns = .run :: ts →
    step s = .next (writeCommand a v { s with script := cs, turns := ts })

/-- 41_display_register.md R133, R141: a loaded SetDigit (log 11) at a position outside 0..3 is refused, and at one
inside is not. In a state without WriteCommand's precondition: log 16; on lines not yet driven: log 7. -/
def Obligations.PositionOutsideZeroToThreeIsRefused : Prop :=
  ∀ (s : State) (p : Nat) (v : Byte) (dp : Bool) (cs : List Call) (ts : List Turn),
    s.phase ≠ .faulted → s.rest = [] → cpCalled s.cp = false →
    s.script = .dig p v dp :: cs → s.turns = .run :: ts →
    (4 ≤ p → step s = .refused (.positionOutOfRange p)) ∧
    (p < 4 → ∃ t, step s = .next t)

/-- 42_voltage_sampler.md R154: SampleAverageVcc of a count outside 1..N_MAX is refused; of one inside it
selects the reference. N_MAX and the largest code with the default ADC_BITS. That a count above N_MAX is refused is
the model's choice: log 30; N_MAX with another ADC_BITS: log 28. -/
def Obligations.SampleCountOutsideItsRangeIsRefused : Prop :=
  ∀ (s : State) (n : Nat) (c : Caller) (ts : List Turn),
    atStatement s = true → s.cp = .sampler .select n c → s.turns = .run :: ts →
    (s.cfg.adcBits = 10 → s.cfg.maxCode = 1023 ∧ s.cfg.maxSamples = 4198404) ∧
    (n = 0 ∨ s.cfg.maxSamples < n → step s = .refused (.sampleCountOutOfRange n)) ∧
    (1 ≤ n ∧ n ≤ s.cfg.maxSamples →
      step s = .next
        { s with
          turns := ts
          adcSel := .bandgapVsVcc
          events := .adcSelect :: s.events
          cp := .sampler .clearAcc n c })

/-- 10_state.md R22: with no turns listed a step performs one primitive at most, and performing a frame one
primitive a step, listed or not, comes to the same as performing it whole. Log 2. -/
def Obligations.OnePrimitiveAtATimeIsTheWholeFrame : Prop :=
  ∀ (s : State) (w : FrameWord) (ts : List Turn),
    (s.phase ≠ .faulted → s.rest = [] → fetch s = some w →
      runSteps 101 { s with turns := List.replicate 101 .prim ++ ts } = step { s with turns := .run :: ts }) ∧
    (s.phase ≠ .faulted → s.rest = [] → fetch s = some w → s.turns = [] → s.adcBusy = false →
      runSteps 101 s = step { s with turns := [.run] }) ∧
    (∀ t, s.turns = [] → step s = .next t → ∃ es, t.trace = s.trace ++ es ∧ es.length ≤ 1)

/-- 40_serial_link.md R116: two states that differ in the receiver only take the same step and differ in the
receiver only. -/
def Obligations.ReceiverNeverInfluencesTheBlock : Prop :=
  ∀ (s : State) (r : Rx),
    match step s with
    | .next t => ∃ q, step { s with rx := r } = .next { t with rx := q }
    | .fault f => step { s with rx := r } = .fault f
    | .refused f => step { s with rx := r } = .refused f

/-- 45_display_receiver.md R240: but for a reset and ConfigurePins (log 24), the wires and the receiver after
a step are a function of the events the step added. -/
def Obligations.ReceiverIsAFunctionOfTheLineEvents : Prop :=
  ∀ s t : State, step s = .next t → (takeTurn s).1 ≠ .reset →
    ∃ es, t.trace = s.trace ++ es ∧ (.pinsConfigured ∈ es ∨ t.wire = replay s.wire es)

/-- 30_encoding.md R85: without a loaded program every frame the controller sends is one of the nine
commands. -/
def Obligations.FixedProgramSendsOnlyTheNineCommands : Prop :=
  ∀ (s t : State) (w : FrameWord), s.script = [] → plan s = .frame w t → ∃ i, decode s.cfg w = some i

/-! The ADC and the sampler. -/

/-- 42_voltage_sampler.md R150, R151. -/
def Obligations.AdcEnableAndSelectSetTheirState : Prop :=
  ∀ s : State,
    adcEnable s = { s with adcEnabled := true, events := .adcEnable :: s.events } ∧
    adcSelect s = { s with adcSel := .bandgapVsVcc, events := .adcSelect :: s.events }

/-- 42_voltage_sampler.md R152: the ADC agent's step with every code of ADC_BITS bits. Without a conversion in
flight: log 25. A larger number stands for its low bits: log 28. -/
def Obligations.AdcCompletesOnlyAConversionInFlight : Prop :=
  ∀ (s : State) (code : Nat) (ts : List Turn), s.turns = .adc code :: ts →
    (s.adcBusy = true → code ≤ s.cfg.maxCode →
      step s = .next { s with turns := ts, adcResult := code, adcDone := true, adcBusy := false }) ∧
    (s.adcBusy = true →
      step s = .next
        { s with turns := ts, adcResult := code % 2 ^ s.cfg.adcBits, adcDone := true, adcBusy := false }) ∧
    (s.adcBusy = false → step s = .next { s with turns := ts })

/-- 10_state.md R30: who writes the completion flag. -/
def Obligations.OnlyTheAdcSetsAndOnlyClearDoneClearsTheFlag : Prop :=
  ∀ s t : State, step s = .next t → t.adcDone ≠ s.adcDone →
    (t.adcDone = true ∧ s.adcBusy = true ∧ t.adcBusy = false ∧ ∃ c, (takeTurn s).1 = .adc c) ∨
    (t.adcDone = false ∧ ∃ n c, s.cp = .sampler .clearDone n c) ∨
    (takeTurn s).1 = .reset

/-- 42_voltage_sampler.md R153: AdcConvertOne, statement by statement. Without R153's precondition: log 16; a start
with a conversion in flight: log 25. -/
def Obligations.ConversionStartsPollsClearsAndReads : Prop :=
  ∀ (s : State) (n : Nat) (c : Caller) (ts : List Turn), atStatement s = true → s.turns = .run :: ts →
    (s.cp = .sampler .start n c →
      step s = .next
        { s with turns := ts, adcBusy := true, events := .adcStart :: s.events, cp := .sampler .poll n c }) ∧
    (s.cp = .sampler .poll n c → s.adcDone = false →
      step s = .next { s with turns := ts, events := .adcPoll false :: s.events }) ∧
    (s.cp = .sampler .poll n c → s.adcDone = true →
      step s = .next { s with turns := ts, events := .adcPoll true :: s.events, cp := .sampler .clearDone n c }) ∧
    (s.cp = .sampler .clearDone n c →
      step s = .next
        { s with turns := ts, adcDone := false, events := .adcClearDone :: s.events, cp := .sampler .read n c }) ∧
    (s.cp = .sampler .read n c →
      step s = .next
        { s with
          turns := ts
          sample := s.adcResult
          events := .adcRead s.adcResult :: s.events
          cp := .sampler .accumulate n c })

/-- 60_exceptions.md R252: while the conversion does not complete, the controller polls for ever. -/
def Obligations.StuckConversionPollsForEver : Prop :=
  ∀ (k : Nat) (s : State) (n : Nat) (c : Caller),
    atStatement s = true → s.cp = .sampler .poll n c → s.adcDone = false →
    runSteps k (withRuns k [] s) =
      .next { s with turns := [], events := List.replicate k (.adcPoll false) ++ s.events }

/-- 42_voltage_sampler.md R153, R154: one turn of the sampling loop, the ADC completing with `code` after one
unsuccessful poll. The loop counter: log 14. Without R153's precondition: log 16; a start with a conversion in
flight: log 25. -/
def Obligations.OneSampleIsAddedToTheSum : Prop :=
  ∀ (s : State) (n : Nat) (c : Caller) (code : Nat),
    atStatement s = true → s.cp = .sampler .start n c → s.adcDone = false → code ≤ s.cfg.maxCode →
    runSteps 8 { s with turns := [.run, .run, .adc code, .run, .run, .run, .run, .run] } =
      .next
        { s with
          turns := []
          adcBusy := false
          adcDone := false
          adcResult := code
          sample := code
          acc := s.acc + BitVec.ofNat 32 code
          n := if s.n < n then s.n + 1 else s.n
          cp := .sampler (if s.n < n then .start else .average) n c
          events :=
            [.delay s.cfg.tSample, .adcRead code, .adcClearDone, .adcPoll true, .adcPoll false, .adcStart] ++
              s.events }

/-- 42_voltage_sampler.md R155, R156: the average and the scaling, truncating; and an average of 0, which
raises VccDivideByZero(acc) and keeps the lines (60_exceptions.md R251, R253). -/
def Obligations.AverageAndScaleTruncateOrFault : Prop :=
  ∀ (s : State) (n : Nat) (c : Caller) (ts : List Turn), atStatement s = true → s.turns = .run :: ts →
    (s.cp = .sampler .average n c → 1 ≤ n →
      ∃ t, step s = .next t ∧ t.avg.toNat = s.acc.toNat / n ∧
        t = { s with turns := ts, avg := t.avg, cp := .sampler .scale n c }) ∧
    (s.cp = .sampler .scale n c → s.avg ≠ 0 →
      ∃ t, step s = .next t ∧ t.vccScaled.toNat = s.cfg.kCal.toNat / s.avg.toNat ∧
        t = { s with turns := ts, vccScaled := t.vccScaled, cp := .formatVoltage c }) ∧
    (s.cp = .sampler .scale n c → s.avg = 0 →
      step s = .next
        { s with
          turns := ts
          fault := some (.vccDivideByZero s.acc)
          phase := .faulted
          events := .fault .vccDivideByZero :: s.events })

/-- 42_voltage_sampler.md R157: FormatVoltage's digits are those of the value. The formulas are the spec's
decision D36, the reduction of the first digit D6. -/
def Obligations.VoltageDigitsAreTheValuesDigits : Prop :=
  ∀ (s : State),
    let t := formatVoltage s
    let v := s.vccScaled.toNat
    t.dig.p1.toNat ≤ 9 ∧ t.dig.p2.toNat ≤ 9 ∧ t.dig.p3.toNat ≤ 9 ∧
    100 * t.dig.p1.toNat + 10 * t.dig.p2.toNat + t.dig.p3.toNat = v % 1000 ∧
    (s.cfg.topDigit = .mod10 → t.dig.p0.toNat = v / 1000 % 10) ∧
    (s.cfg.topDigit = .raw → t.dig.p0.toNat = v / 1000 % 256) ∧
    t.dp = { p0 := true, p1 := false, p2 := false, p3 := false }

/-! The temperature formatter and the sensor port. -/

/-- 43_temperature_formatter.md R181, R182, R184, R187: below 100 degrees, and a negative reading, `k` being
FRAC_BITS (16 is its power of two for the default 4). -/
def Obligations.TemperatureBelowHundredLayout : Prop :=
  ∀ (k : Nat) (m : TopDigitMode) (r : Int),
    (r < 0 → formatTemperature k m r = .unsupported) ∧
    (0 ≤ r → r < 100 * 2 ^ k →
      ∃ d, formatTemperature k m r = .ok d { p0 := false, p1 := true, p2 := false, p3 := false } ∧
        d.p0.toNat ≤ 9 ∧ d.p1.toNat ≤ 9 ∧ d.p2.toNat ≤ 9 ∧ d.p3.toNat ≤ 9 ∧
        10 * d.p0.toNat + d.p1.toNat = r.toNat / 2 ^ k ∧
        10 * d.p2.toNat + d.p3.toNat = r.toNat % 2 ^ k * 100 / 2 ^ k)

/-- 43_temperature_formatter.md R181, R183, R184: at and above 100 degrees, in both top-digit modes (92 D6), `k`
being FRAC_BITS. -/
def Obligations.TemperatureFromHundredLayout : Prop :=
  ∀ (k : Nat) (m : TopDigitMode) (r : Int), 100 * 2 ^ k ≤ r →
    ∃ d, formatTemperature k m r = .ok d { p0 := false, p1 := false, p2 := true, p3 := false } ∧
      d.p1.toNat ≤ 9 ∧ d.p2.toNat ≤ 9 ∧ d.p3.toNat ≤ 9 ∧
      10 * d.p1.toNat + d.p2.toNat = r.toNat / 2 ^ k % 100 ∧ d.p3.toNat = r.toNat % 2 ^ k * 10 / 2 ^ k ∧
      (m = .mod10 → d.p0.toNat = r.toNat / 2 ^ k / 100 % 10) ∧
      (m = .raw → d.p0.toNat = r.toNat / 2 ^ k / 100 % 256) ∧
      (r < 1000 * 2 ^ k → d.p0.toNat = r.toNat / 2 ^ k / 100)

/-- 43_temperature_formatter.md R184: the truncating fraction conversion of every reading of four fractional bits,
and its table row by row. -/
def Obligations.FractionConversionTruncates : Prop :=
  (List.range 16).map (fun m => m * 100 / 16) = [0, 6, 12, 18, 25, 31, 37, 43, 50, 56, 62, 68, 75, 81, 87, 93] ∧
  (List.range 16).map (fun m => m * 10 / 16) = [0, 0, 1, 1, 2, 3, 3, 4, 5, 5, 6, 6, 7, 8, 8, 9] ∧
  ∀ (m : TopDigitMode) (r : Int),
    (0 ≤ r → r < 1600 →
      ∃ d p, formatTemperature 4 m r = .ok d p ∧ 10 * d.p2.toNat + d.p3.toNat = r.toNat % 16 * 100 / 16) ∧
    (1600 ≤ r → ∃ d p, formatTemperature 4 m r = .ok d p ∧ d.p3.toNat = r.toNat % 16 * 10 / 16)

/-- 44_controller_fsm.md R206: the three sensor calls, for every reading of READING_WIDTH bits. Where the answer
comes from: log 6. A number outside that range: log 28. -/
def Obligations.SensorCallsSetTheirState : Prop :=
  ∀ (s : State) (r : Int) (rs : List Int),
    sensorConfigure s =
      { s with sensorConfigured := true, events := .sensorConfigure s.cfg.sensorCfg :: s.events } ∧
    sensorStart s = { s with sensorPending := true, events := .sensorStart :: s.events } ∧
    (s.readings = r :: rs → readingFits s.cfg r = true →
      sensorRead s =
        { s with
          reading := r
          sensorPending := false
          readings := rs
          draws := s.draws + 1
          events := .sensorRead r :: s.events }) ∧
    (∃ q, readingFits s.cfg q = true ∧ (sensorRead s).reading = q ∧ (sensorRead s).sensorPending = false ∧
      (sensorRead s).trace = s.trace ++ [.sensorRead q]) ∧
    (s.readings = [] → (sensorRead s).reading = sensorValue s.cfg (Config.freeReading s.draws))

/-- 44_controller_fsm.md R207 and 43_temperature_formatter.md R185: one iteration of the fixed program's temperature
loop, T1 to T5, with a reading that can be shown. The values frame and bit keep after a frame: log 15; a sensor not
configured: log 16. What the frames leave in the receiver (45_display_receiver.md 1) is the spec's general
knowledge: log 23. -/
def Obligations.TemperatureIterationShowsTheReading : Prop :=
  ∀ (s : State) (r : Int) (rs : List Int) (d : Quad Byte) (p : Quad Bool),
    atStatement s = true → linesIdle s = true → s.cp = .temp .start false →
    s.readings = r :: rs → readingFits s.cfg r = true →
    formatTemperature s.cfg.fracBits s.cfg.topDigit r = .ok d p →
    runSteps 9 (withRuns 9 [] s) =
      .next
        (afterDigits d p
          { s with
            turns := []
            readings := rs
            draws := s.draws + 1
            reading := r
            sensorPending := false
            dig := d
            dp := p
            events := [.sensorRead r, .delay s.cfg.tConv, .sensorStart] ++ s.events })

/-- 44_controller_fsm.md R207, 60_exceptions.md R254: a negative reading sends no frame and the loop goes
on; the digits stay. A sensor not configured: log 16. -/
def Obligations.NegativeReadingSendsNoFrame : Prop :=
  ∀ (s : State) (r : Int) (rs : List Int),
    atStatement s = true → s.cp = .temp .start false → s.readings = r :: rs → readingFits s.cfg r = true → r < 0 →
    runSteps 5 (withRuns 5 [] s) =
      .next
        { s with
          turns := []
          readings := rs
          draws := s.draws + 1
          reading := r
          sensorPending := false
          events := [.sensorRead r, .delay s.cfg.tConv, .sensorStart] ++ s.events }

/-! The controller. -/

/-- 44_controller_fsm.md R201: Init from any state at I1: its events in order, what it establishes. The order
of its steps is the spec's decision D19; the receiver is its general knowledge: log 23. -/
def Obligations.InitSendsTheFiveControlFrames : Prop :=
  ∀ s : State, atStatement s = true → s.cp = .i1 → s.cfg.addressesOk = true →
    ∃ t, runSteps 12 (withRuns 12 [] s) = .next t ∧ t.phase = .calibratingVoltage ∧
      t.trace = s.trace ++
        [.pinsConfigured, .line .cs true, .delay s.cfg.tLink, .line .clk false, .delay s.cfg.tLink,
          .line .din s.cfg.dinIdle, .delay s.cfg.tLink, .adcEnable] ++
        frameEvents s.cfg.tLink (frameWord s.cfg.aShutdown s.cfg.vNormal) ++
        frameEvents s.cfg.tLink (frameWord s.cfg.aTest s.cfg.vTestOff) ++
        frameEvents s.cfg.tLink (frameWord s.cfg.aDecode s.cfg.vDecode) ++
        frameEvents s.cfg.tLink (frameWord s.cfg.aIntensity s.cfg.vIntensity) ++
        frameEvents s.cfg.tLink (frameWord s.cfg.aScanlimit s.cfg.vScanlimit) ++
        [.sensorConfigure s.cfg.sensorCfg] ∧
      linesIdle t = true ∧ t.adcEnabled = true ∧ t.sensorConfigured = true ∧
      t.rx.reg s.cfg.aShutdown = s.cfg.vNormal ∧ t.rx.reg s.cfg.aTest = s.cfg.vTestOff ∧
      t.rx.reg s.cfg.aDecode = s.cfg.vDecode ∧ t.rx.reg s.cfg.aIntensity = s.cfg.vIntensity ∧
      t.rx.reg s.cfg.aScanlimit = s.cfg.vScanlimit

/-- 44_controller_fsm.md R200, R202, R203, R204: which startup runs, how many samples it takes, and M1 at its first
round. No step for the line that asks for the variant: log 27; no round where N_ROUNDS is 0: log 17. -/
def Obligations.StartupVariantChoosesTheSampling : Prop :=
  ∀ (s : State) (ts : List Turn), atStatement s = true → s.turns = .run :: ts →
    (s.cp = .i12 → s.cfg.variant = .singleAverage →
      step s = .next
        { s with turns := ts, phase := .calibratingVoltage, cp := .sampler .select s.cfg.nSamplesSingle .single }) ∧
    (s.cp = .i12 → s.cfg.variant = .multiRound →
      step s = .next { s with turns := ts, phase := .calibratingVoltage, cp := .m1 true }) ∧
    (s.cp = .m1 true → 1 ≤ s.cfg.nRounds →
      step s = .next { s with turns := ts, round := 1, cp := .sampler .select s.cfg.nSamplesRound .multi }) ∧
    (s.cp = .m1 true → s.cfg.nRounds = 0 → step s = .next { s with turns := ts, cp := .c1 })

/-- 42_voltage_sampler.md R158, 44_controller_fsm.md R203, R205: ShowVoltage, the dwell and the transition of
the SingleAverage startup. -/
def Obligations.SingleAverageShowsDwellsAndMovesOn : Prop :=
  ∀ s : State, atStatement s = true → linesIdle s = true →
    s.cp = .formatVoltage .single →
    ∃ t, runSteps 7 (withRuns 7 [] s) = .next t ∧ t.phase = .displayingTemperature ∧
      t.cp = .temp .start false ∧
      t.trace = s.trace ++
        frameEvents s.cfg.tLink (digitWord .p0 (topDigit s.cfg.topDigit (s.vccScaled.toNat / 1000)) true) ++
        frameEvents s.cfg.tLink (digitWord .p1 (BitVec.ofNat 8 (s.vccScaled.toNat / 100 % 10)) false) ++
        frameEvents s.cfg.tLink (digitWord .p2 (BitVec.ofNat 8 (s.vccScaled.toNat / 10 % 10)) false) ++
        frameEvents s.cfg.tLink (digitWord .p3 (BitVec.ofNat 8 (s.vccScaled.toNat % 10)) false) ++
        [.delay s.cfg.tDwell]

/-- 44_controller_fsm.md R200, R204: after a round's display the loop turns at M1 to the next round, or after the
last one ends the startup. That round then keeps its last value: log 14. -/
def Obligations.MultiRoundRepeatsItsRounds : Prop :=
  ∀ (s : State) (ts : List Turn), atStatement s = true → s.turns = .run :: ts →
    (linesIdle s = true → s.cp = .showVoltage .p3 .multi →
      ∃ t, step s = .next t ∧
        t.trace = s.trace ++ frameEvents s.cfg.tLink (digitWord .p3 s.dig.p3 s.dp.p3) ∧
        t.round = s.round ∧ t.cp = .m1 false) ∧
    (s.cp = .m1 false → s.round < s.cfg.nRounds →
      step s = .next
        { s with turns := ts, round := s.round + 1, cp := .sampler .select s.cfg.nSamplesRound .multi }) ∧
    (s.cp = .m1 false → s.cfg.nRounds ≤ s.round → step s = .next { s with turns := ts, cp := .c1 })

/-- 30_encoding.md R92: SHOW as a loaded program is the four frames of ShowDigits, wherever the fixed program
stands, and leaves it there. Log 11. The values frame and bit keep after a frame: log 15. What the frames leave in
the receiver (45_display_receiver.md 1) is the spec's general knowledge: log 23. -/
def Obligations.ShowProgramSendsFourDigitFrames : Prop :=
  ∀ (s : State) (v : Quad Byte) (point : Option Pos),
    atStatement s = true → linesIdle s = true → cpCalled s.cp = false →
    runSteps 4 (loadProgram [.show v point] (withRuns 4 [] s)) =
      .next
        (afterDigits v
          { p0 := point == some .p0, p1 := point == some .p1, p2 := point == some .p2, p3 := point == some .p3 }
          { s with turns := [] })

/-- 10_state.md R21: the phase changes in no other way. -/
def Obligations.PhaseChangesOnlyAlongTheStateMachine : Prop :=
  ∀ s t : State, controlOk s = true → step s = .next t → t.phase ≠ s.phase →
    ((takeTurn s).1 = .reset ∧ t.phase = .init) ∨
    (s.phase = .init ∧ s.cp = .i12 ∧ t.phase = .calibratingVoltage) ∨
    (s.phase = .calibratingVoltage ∧ s.cp = .c1 ∧ t.phase = .displayingTemperature) ∨
    (s.phase ≠ .faulted ∧ t.phase = .faulted ∧ t.fault = some (.vccDivideByZero s.acc))

/-! Faults and reset. -/

/-- 60_exceptions.md R251: a faulted controller takes no step. -/
def Obligations.FaultedControllerTakesNoStep : Prop :=
  ∀ (s : State) (ts : List Turn), s.phase = .faulted → (s.turns = .run :: ts ∨ s.turns = .prim :: ts) →
    step s = .fault (.stopped s.fault)

/-- 60_exceptions.md R251, 10_state.md R33: until a reset a recorded fault, the phase, the lines and the
trace stay. -/
def Obligations.RecordedFaultStaysUntilReset : Prop :=
  ∀ s t : State, s.phase = .faulted → step s = .next t → (takeTurn s).1 ≠ .reset →
    t.phase = .faulted ∧ t.fault = s.fault ∧ t.trace = s.trace ∧ t.cs = s.cs ∧ t.clk = s.clk ∧ t.din = s.din

/-- 10_state.md R42: the values the spec gives for reset. -/
def Obligations.ResetStateHasTheSpecsValues : Prop :=
  State.reset.phase = .init ∧ State.reset.cp = .i1 ∧ State.reset.cs = .z ∧ State.reset.clk = .z ∧
  State.reset.din = .z ∧ State.reset.trace = [] ∧ State.reset.adcEnabled = false ∧ State.reset.adcSel = .unset ∧
  State.reset.adcBusy = false ∧ State.reset.sensorConfigured = false ∧ State.reset.sensorPending = false ∧
  State.reset.fault = none

/-- 70_reset_and_hazards.md R280: a reset at any point, also in the middle of a frame, a conversion or in
phase Faulted. -/
def Obligations.HardResetWorksAtAnyPoint : Prop :=
  ∀ (s : State) (ts : List Turn), s.turns = .reset :: ts →
    ∃ t, step s = .next t ∧ t.phase = .init ∧ t.cp = .i1 ∧ t.rest = [] ∧ t.script = [] ∧ t.cs = .z ∧
      t.clk = .z ∧ t.din = .z ∧ t.trace = [] ∧ t.adcEnabled = false ∧ t.adcSel = .unset ∧ t.adcBusy = false ∧
      t.sensorConfigured = false ∧ t.sensorPending = false ∧ t.fault = none ∧ t.cfg = s.cfg ∧ t.turns = ts

/-! Invariants and whole-machine rules. -/

/-- Every invariant holds after power-on. That sample and reading then lie in their ranges: log 4. -/
def Obligations.ResetStateIsSafe : Prop := Safe State.reset = true

/-- 10_state.md R20, R21, R33: phase, control point and fault record agree for ever. -/
def Obligations.StepKeepsPhaseAndControlPointTogether : Prop :=
  ∀ s t : State, controlOk s = true → step s = .next t → controlOk t = true

/-- 10_state.md R31, R32, 42_voltage_sampler.md R155, R159: ADC codes and readings keep their widths, the sums
never overflow and the average never exceeds the largest code (1023). After a reset: log 4, log 28. -/
def Obligations.StepKeepsTheSamplerInRange : Prop :=
  ∀ s t : State, controlOk s = true → valuesOk s = true → samplerOk s = true → step s = .next t →
    valuesOk t = true ∧ samplerOk t = true

/-- 40_serial_link.md R111, 20_memory.md R67, 70_reset_and_hazards.md R282: past Init's I4 the lines are idle
whenever no operation is in progress, and what is in progress will leave them so. -/
def Obligations.StepKeepsTheLinesIdleBetweenOperations : Prop :=
  ∀ s t : State, controlOk s = true → linesOk s = true → step s = .next t → linesOk t = true

/-- 70_reset_and_hazards.md R282: the ADC is enabled and selected and the sensor configured before use. -/
def Obligations.StepKeepsThePortsSetUp : Prop :=
  ∀ s t : State, controlOk s = true → portsOk s = true → step s = .next t → portsOk t = true

/-- 40_serial_link.md R112, 70_reset_and_hazards.md R286: every line event is followed at once by a delay of
at least 1 µs, for ever. -/
def Obligations.StepKeepsLinkEventsSpaced : Prop :=
  ∀ s t : State, linkSpaced s = true → step s = .next t → linkSpaced t = true

/-- The register file keeps its canonical form (log 10). -/
def Obligations.StepKeepsTheRegisterFileCanonical : Prop :=
  ∀ s t : State, rxCanonical s = true → step s = .next t → rxCanonical t = true

/-- 00_scope.md R10: no step changes the configuration. -/
def Obligations.ConfigurationNeverChanges : Prop :=
  ∀ s t : State, step s = .next t → t.cfg = s.cfg

/-! The display. -/

/-- 45_display_receiver.md R233 to R240 (the spec's general knowledge): with the control registers as Init
leaves them, the display shows the digits and decimal points that were sent. -/
def Obligations.DisplayShowsTheDigitsSent : Prop :=
  ∀ (c : Config) (r : Rx) (d : Quad Byte) (p : Quad Bool),
    displayOn c r = true →
    (∀ q, r.reg (physAddr q) = packDigit (quadAt d q) (quadAt p q) ∧ (quadAt d q).toNat ≤ 9) →
    shown c r =
      some (digitText d.p0 p.p0 ++ digitText d.p1 p.p1 ++ digitText d.p2 p.p2 ++ digitText d.p3 p.p3)

/-- 10_state.md R39, 45_display_receiver.md R239 (the spec's general knowledge): an intensity write sets the
brightness step to bits 3..0 of its value, whatever bits 7..4 are, and changes nothing that is shown. -/
def Obligations.IntensityWriteSetsTheBrightnessOnly : Prop :=
  ∀ (v : Byte) (s : State), linesIdle s = true → s.cfg.addressesOk = true →
    ∃ t, exec (.wrIntensity v) s = .next t ∧ (brightness t.cfg t.rx).toNat = v.toNat % 16 ∧
      (∀ p, litSegments t.cfg t.rx p = litSegments s.cfg s.rx p) ∧ shown t.cfg t.rx = shown s.cfg s.rx
end

