-- ==== Sys2Proof/Laws/Answers.lean ====
section
/-! SUPPORT. The ranges of the ADC's and the sensor's answers. -/

namespace Sys2Proof.Machine

/-- Every answer of the ADC is a code. -/
theorem adcCode_le (c : Config) (x : Nat) : adcCode c x ≤ c.maxCode :=
  Nat.le_sub_one_of_lt (Nat.mod_lt _ (Nat.two_pow_pos _))

/-- A code is taken as it is. -/
theorem adcCode_of_le {c : Config} {x : Nat} (h : x ≤ c.maxCode) : adcCode c x = x :=
  Nat.mod_eq_of_lt (by have := Nat.two_pow_pos c.adcBits; unfold Config.maxCode at h; omega)

/-- Every answer of the sensor is a reading. -/
theorem readingFits_sensorValue (c : Config) (x : Int) : readingFits c (sensorValue c x) = true := by
  have hp : 0 < 2 ^ c.readingWidth := Nat.two_pow_pos _
  have h1 := Int.le_bmod (x := x) hp
  have h2 := Int.bmod_lt (x := x) hp
  refine decide_eq_true ?_
  unfold sensorValue
  rw [show ((2 : Int) ^ c.readingWidth) = ((2 ^ c.readingWidth : Nat) : Int) by push_cast; rfl]
  generalize hw : c.readingWidth = w at *
  cases w with
  | zero => simp only [Nat.pow_zero] at *; omega
  | succ w => rw [Nat.pow_succ] at *; omega

/-- A reading is taken as it is. -/
theorem sensorValue_of_fits {c : Config} {x : Int} (h : readingFits c x = true) : sensorValue c x = x := by
  have h := of_decide_eq_true h
  have e : ((2 : Int) ^ c.readingWidth) = ((2 ^ c.readingWidth : Nat) : Int) := by push_cast; rfl
  rw [e] at h
  exact Int.bmod_eq_of_le (by omega) (by omega)

/-- The largest count's sum of largest codes fits the accumulator (42_voltage_sampler.md R159). -/
theorem maxCode_mul_le {c : Config} {n : Nat} (h : n ≤ c.maxSamples) : c.maxCode * n ≤ 2 ^ 32 - 1 :=
  (Nat.mul_le_mul_left _ h).trans (Nat.mul_div_le _ _)

end Sys2Proof.Machine
end

