-- ==== Sys2Proof/Laws/Encoding.lean ====
section
/-! SUPPORT. The fields of frame words and digit bytes. -/

namespace Sys2Proof

@[simp] theorem wordAddr_frameWord (a v : Byte) : wordAddr (frameWord a v) = a := by
  apply BitVec.eq_of_getLsbD_eq
  intro i hi
  simp [wordAddr, frameWord, hi, show 8 + i < 16 by omega]

@[simp] theorem wordValue_frameWord (a v : Byte) : wordValue (frameWord a v) = v := by
  apply BitVec.eq_of_getLsbD_eq
  intro i hi
  simp [wordValue, frameWord, hi]

/-- A word is its two bytes (30_encoding.md R81). -/
theorem frameWord_eta (w : FrameWord) : frameWord (wordAddr w) (wordValue w) = w := by
  apply BitVec.eq_of_getLsbD_eq
  intro i hi
  by_cases h : i < 8
  · simp [wordAddr, wordValue, frameWord, hi, h]
  · simp [wordAddr, wordValue, frameWord, hi, h, show i - 8 < 8 by omega, show 8 + (i - 8) = i by omega]

/-- The digit value is read back from the digit byte where it leaves bit 7 alone (30_encoding.md R83, R89). -/
theorem byteDigit_packDigit (v : Byte) (dp : Bool) (h : v.toNat < 128) : byteDigit (packDigit v dp) = v := by
  have hv : v.toNat < 2 ^ 7 := h
  apply BitVec.eq_of_getLsbD_eq
  intro i hi
  have h7 : v.getLsbD 7 = false := by
    rw [BitVec.getLsbD, Nat.testBit_lt_two_pow hv]
  cases dp <;> interval_cases i <;> simp_all [byteDigit, packDigit]

theorem bytePoint_packDigit (v : Byte) (dp : Bool) (h : v.toNat < 128) : bytePoint (packDigit v dp) = dp := by
  have hv : v.toNat < 2 ^ 7 := h
  have h7 : v.getLsbD 7 = false := by
    rw [BitVec.getLsbD, Nat.testBit_lt_two_pow hv]
  cases dp <;> simp_all [bytePoint, packDigit]

/-- A digit byte is its two fields. -/
theorem packDigit_eta (b : Byte) : packDigit (byteDigit b) (bytePoint b) = b := by
  apply BitVec.eq_of_getLsbD_eq
  intro i hi
  cases h : b.getLsbD 7 <;> interval_cases i <;> simp_all [byteDigit, packDigit, bytePoint]

theorem byteDigit_lt (b : Byte) : (byteDigit b).toNat < 128 := by
  have : (byteDigit b).toNat ≤ 0x7F := by
    simp only [byteDigit, BitVec.toNat_and]
    exact Nat.and_le_right
  omega

end Sys2Proof
end

