-- ==== Sys2Proof/Laws/State.lean ====
section
/-! SUPPORT. One lemma per field per update: what the trace, line and link operations leave as it was. -/

namespace Sys2Proof.Machine

variable (s : State)

/-! `record` writes the trace only. -/

@[simp] theorem record_events (e : Event) : (record e s).events = e :: s.events := rfl
@[simp] theorem record_trace (e : Event) : (record e s).trace = s.trace ++ [e] := by
  simp [record, State.trace]
@[simp] theorem record_cfg (e : Event) : (record e s).cfg = s.cfg := rfl
@[simp] theorem record_phase (e : Event) : (record e s).phase = s.phase := rfl
@[simp] theorem record_cp (e : Event) : (record e s).cp = s.cp := rfl
@[simp] theorem record_rest (e : Event) : (record e s).rest = s.rest := rfl
@[simp] theorem record_acc (e : Event) : (record e s).acc = s.acc := rfl
@[simp] theorem record_n (e : Event) : (record e s).n = s.n := rfl
@[simp] theorem record_sample (e : Event) : (record e s).sample = s.sample := rfl
@[simp] theorem record_avg (e : Event) : (record e s).avg = s.avg := rfl
@[simp] theorem record_vccScaled (e : Event) : (record e s).vccScaled = s.vccScaled := rfl
@[simp] theorem record_round (e : Event) : (record e s).round = s.round := rfl
@[simp] theorem record_reading (e : Event) : (record e s).reading = s.reading := rfl
@[simp] theorem record_dig (e : Event) : (record e s).dig = s.dig := rfl
@[simp] theorem record_dp (e : Event) : (record e s).dp = s.dp := rfl
@[simp] theorem record_adcEnabled (e : Event) : (record e s).adcEnabled = s.adcEnabled := rfl
@[simp] theorem record_adcSel (e : Event) : (record e s).adcSel = s.adcSel := rfl
@[simp] theorem record_adcBusy (e : Event) : (record e s).adcBusy = s.adcBusy := rfl
@[simp] theorem record_adcDone (e : Event) : (record e s).adcDone = s.adcDone := rfl
@[simp] theorem record_adcResult (e : Event) : (record e s).adcResult = s.adcResult := rfl
@[simp] theorem record_sensorConfigured (e : Event) : (record e s).sensorConfigured = s.sensorConfigured := rfl
@[simp] theorem record_sensorPending (e : Event) : (record e s).sensorPending = s.sensorPending := rfl
@[simp] theorem record_fault (e : Event) : (record e s).fault = s.fault := rfl
@[simp] theorem record_script (e : Event) : (record e s).script = s.script := rfl
@[simp] theorem record_resume (e : Event) : (record e s).resume = s.resume := rfl
@[simp] theorem record_turns (e : Event) : (record e s).turns = s.turns := rfl
@[simp] theorem record_readings (e : Event) : (record e s).readings = s.readings := rfl
@[simp] theorem record_draws (e : Event) : (record e s).draws = s.draws := rfl
@[simp] theorem record_frame (e : Event) : (record e s).frame = s.frame := rfl
@[simp] theorem record_bit (e : Event) : (record e s).bit = s.bit := rfl
@[simp] theorem record_cs (e : Event) : (record e s).cs = s.cs := rfl
@[simp] theorem record_clk (e : Event) : (record e s).clk = s.clk := rfl
@[simp] theorem record_din (e : Event) : (record e s).din = s.din := rfl
@[simp] theorem record_rx (e : Event) : (record e s).rx = s.rx := rfl

/-! `delay` and `linkDelay` write the trace only. -/

@[simp] theorem delay_events (t : Micros) : (delay t s).events = .delay t :: s.events := rfl
@[simp] theorem delay_trace (t : Micros) : (delay t s).trace = s.trace ++ [.delay t] := record_trace s _
@[simp] theorem linkDelay_events : (linkDelay s).events = .delay s.cfg.tLink :: s.events := rfl
@[simp] theorem linkDelay_trace : (linkDelay s).trace = s.trace ++ [.delay s.cfg.tLink] := record_trace s _
@[simp] theorem delay_cfg (t : Micros) : (delay t s).cfg = s.cfg := rfl
@[simp] theorem delay_phase (t : Micros) : (delay t s).phase = s.phase := rfl
@[simp] theorem delay_cp (t : Micros) : (delay t s).cp = s.cp := rfl
@[simp] theorem delay_rest (t : Micros) : (delay t s).rest = s.rest := rfl
@[simp] theorem delay_acc (t : Micros) : (delay t s).acc = s.acc := rfl
@[simp] theorem delay_n (t : Micros) : (delay t s).n = s.n := rfl
@[simp] theorem delay_sample (t : Micros) : (delay t s).sample = s.sample := rfl
@[simp] theorem delay_avg (t : Micros) : (delay t s).avg = s.avg := rfl
@[simp] theorem delay_vccScaled (t : Micros) : (delay t s).vccScaled = s.vccScaled := rfl
@[simp] theorem delay_round (t : Micros) : (delay t s).round = s.round := rfl
@[simp] theorem delay_reading (t : Micros) : (delay t s).reading = s.reading := rfl
@[simp] theorem delay_dig (t : Micros) : (delay t s).dig = s.dig := rfl
@[simp] theorem delay_dp (t : Micros) : (delay t s).dp = s.dp := rfl
@[simp] theorem delay_adcEnabled (t : Micros) : (delay t s).adcEnabled = s.adcEnabled := rfl
@[simp] theorem delay_adcSel (t : Micros) : (delay t s).adcSel = s.adcSel := rfl
@[simp] theorem delay_adcBusy (t : Micros) : (delay t s).adcBusy = s.adcBusy := rfl
@[simp] theorem delay_adcDone (t : Micros) : (delay t s).adcDone = s.adcDone := rfl
@[simp] theorem delay_adcResult (t : Micros) : (delay t s).adcResult = s.adcResult := rfl
@[simp] theorem delay_sensorConfigured (t : Micros) : (delay t s).sensorConfigured = s.sensorConfigured := rfl
@[simp] theorem delay_sensorPending (t : Micros) : (delay t s).sensorPending = s.sensorPending := rfl
@[simp] theorem delay_fault (t : Micros) : (delay t s).fault = s.fault := rfl
@[simp] theorem delay_script (t : Micros) : (delay t s).script = s.script := rfl
@[simp] theorem delay_resume (t : Micros) : (delay t s).resume = s.resume := rfl
@[simp] theorem delay_turns (t : Micros) : (delay t s).turns = s.turns := rfl
@[simp] theorem delay_readings (t : Micros) : (delay t s).readings = s.readings := rfl
@[simp] theorem delay_draws (t : Micros) : (delay t s).draws = s.draws := rfl
@[simp] theorem delay_frame (t : Micros) : (delay t s).frame = s.frame := rfl
@[simp] theorem delay_bit (t : Micros) : (delay t s).bit = s.bit := rfl
@[simp] theorem delay_cs (t : Micros) : (delay t s).cs = s.cs := rfl
@[simp] theorem delay_clk (t : Micros) : (delay t s).clk = s.clk := rfl
@[simp] theorem delay_din (t : Micros) : (delay t s).din = s.din := rfl
@[simp] theorem delay_rx (t : Micros) : (delay t s).rx = s.rx := rfl
@[simp] theorem linkDelay_cfg : (linkDelay s).cfg = s.cfg := rfl
@[simp] theorem linkDelay_phase : (linkDelay s).phase = s.phase := rfl
@[simp] theorem linkDelay_cp : (linkDelay s).cp = s.cp := rfl
@[simp] theorem linkDelay_rest : (linkDelay s).rest = s.rest := rfl
@[simp] theorem linkDelay_acc : (linkDelay s).acc = s.acc := rfl
@[simp] theorem linkDelay_n : (linkDelay s).n = s.n := rfl
@[simp] theorem linkDelay_sample : (linkDelay s).sample = s.sample := rfl
@[simp] theorem linkDelay_avg : (linkDelay s).avg = s.avg := rfl
@[simp] theorem linkDelay_vccScaled : (linkDelay s).vccScaled = s.vccScaled := rfl
@[simp] theorem linkDelay_round : (linkDelay s).round = s.round := rfl
@[simp] theorem linkDelay_reading : (linkDelay s).reading = s.reading := rfl
@[simp] theorem linkDelay_dig : (linkDelay s).dig = s.dig := rfl
@[simp] theorem linkDelay_dp : (linkDelay s).dp = s.dp := rfl
@[simp] theorem linkDelay_adcEnabled : (linkDelay s).adcEnabled = s.adcEnabled := rfl
@[simp] theorem linkDelay_adcSel : (linkDelay s).adcSel = s.adcSel := rfl
@[simp] theorem linkDelay_adcBusy : (linkDelay s).adcBusy = s.adcBusy := rfl
@[simp] theorem linkDelay_adcDone : (linkDelay s).adcDone = s.adcDone := rfl
@[simp] theorem linkDelay_adcResult : (linkDelay s).adcResult = s.adcResult := rfl
@[simp] theorem linkDelay_sensorConfigured : (linkDelay s).sensorConfigured = s.sensorConfigured := rfl
@[simp] theorem linkDelay_sensorPending : (linkDelay s).sensorPending = s.sensorPending := rfl
@[simp] theorem linkDelay_fault : (linkDelay s).fault = s.fault := rfl
@[simp] theorem linkDelay_script : (linkDelay s).script = s.script := rfl
@[simp] theorem linkDelay_resume : (linkDelay s).resume = s.resume := rfl
@[simp] theorem linkDelay_turns : (linkDelay s).turns = s.turns := rfl
@[simp] theorem linkDelay_readings : (linkDelay s).readings = s.readings := rfl
@[simp] theorem linkDelay_draws : (linkDelay s).draws = s.draws := rfl
@[simp] theorem linkDelay_frame : (linkDelay s).frame = s.frame := rfl
@[simp] theorem linkDelay_bit : (linkDelay s).bit = s.bit := rfl
@[simp] theorem linkDelay_cs : (linkDelay s).cs = s.cs := rfl
@[simp] theorem linkDelay_clk : (linkDelay s).clk = s.clk := rfl
@[simp] theorem linkDelay_din : (linkDelay s).din = s.din := rfl
@[simp] theorem linkDelay_rx : (linkDelay s).rx = s.rx := rfl

/-! `setLine` writes one line, the trace and the receiver. -/

@[simp] theorem setLine_events (sig : Sig) (lvl : Bool) :
    (setLine sig lvl s).events = .line sig lvl :: s.events := by cases sig <;> rfl
@[simp] theorem setLine_trace (sig : Sig) (lvl : Bool) :
    (setLine sig lvl s).trace = s.trace ++ [.line sig lvl] := by cases sig <;> simp [State.trace]
@[simp] theorem setLine_rx (sig : Sig) (lvl : Bool) :
    (setLine sig lvl s).rx = s.rx.onLine s.cs s.clk s.din sig lvl := by cases sig <;> rfl
@[simp] theorem setLine_cs (lvl : Bool) : (setLine .cs lvl s).cs = .driven lvl := rfl
@[simp] theorem setLine_clk (lvl : Bool) : (setLine .clk lvl s).clk = .driven lvl := rfl
@[simp] theorem setLine_din (lvl : Bool) : (setLine .din lvl s).din = .driven lvl := rfl
@[simp] theorem setLine_cs_clk (lvl : Bool) : (setLine .cs lvl s).clk = s.clk := rfl
@[simp] theorem setLine_cs_din (lvl : Bool) : (setLine .cs lvl s).din = s.din := rfl
@[simp] theorem setLine_clk_cs (lvl : Bool) : (setLine .clk lvl s).cs = s.cs := rfl
@[simp] theorem setLine_clk_din (lvl : Bool) : (setLine .clk lvl s).din = s.din := rfl
@[simp] theorem setLine_din_cs (lvl : Bool) : (setLine .din lvl s).cs = s.cs := rfl
@[simp] theorem setLine_din_clk (lvl : Bool) : (setLine .din lvl s).clk = s.clk := rfl
@[simp] theorem setLine_cfg (sig : Sig) (lvl : Bool) : (setLine sig lvl s).cfg = s.cfg := by cases sig <;> rfl
@[simp] theorem setLine_phase (sig : Sig) (lvl : Bool) : (setLine sig lvl s).phase = s.phase := by cases sig <;> rfl
@[simp] theorem setLine_cp (sig : Sig) (lvl : Bool) : (setLine sig lvl s).cp = s.cp := by cases sig <;> rfl
@[simp] theorem setLine_rest (sig : Sig) (lvl : Bool) : (setLine sig lvl s).rest = s.rest := by cases sig <;> rfl
@[simp] theorem setLine_acc (sig : Sig) (lvl : Bool) : (setLine sig lvl s).acc = s.acc := by cases sig <;> rfl
@[simp] theorem setLine_n (sig : Sig) (lvl : Bool) : (setLine sig lvl s).n = s.n := by cases sig <;> rfl
@[simp] theorem setLine_sample (sig : Sig) (lvl : Bool) : (setLine sig lvl s).sample = s.sample := by cases sig <;> rfl
@[simp] theorem setLine_avg (sig : Sig) (lvl : Bool) : (setLine sig lvl s).avg = s.avg := by cases sig <;> rfl
@[simp] theorem setLine_vccScaled (sig : Sig) (lvl : Bool) : (setLine sig lvl s).vccScaled = s.vccScaled := by cases sig <;> rfl
@[simp] theorem setLine_round (sig : Sig) (lvl : Bool) : (setLine sig lvl s).round = s.round := by cases sig <;> rfl
@[simp] theorem setLine_reading (sig : Sig) (lvl : Bool) : (setLine sig lvl s).reading = s.reading := by cases sig <;> rfl
@[simp] theorem setLine_dig (sig : Sig) (lvl : Bool) : (setLine sig lvl s).dig = s.dig := by cases sig <;> rfl
@[simp] theorem setLine_dp (sig : Sig) (lvl : Bool) : (setLine sig lvl s).dp = s.dp := by cases sig <;> rfl
@[simp] theorem setLine_adcEnabled (sig : Sig) (lvl : Bool) : (setLine sig lvl s).adcEnabled = s.adcEnabled := by cases sig <;> rfl
@[simp] theorem setLine_adcSel (sig : Sig) (lvl : Bool) : (setLine sig lvl s).adcSel = s.adcSel := by cases sig <;> rfl
@[simp] theorem setLine_adcBusy (sig : Sig) (lvl : Bool) : (setLine sig lvl s).adcBusy = s.adcBusy := by cases sig <;> rfl
@[simp] theorem setLine_adcDone (sig : Sig) (lvl : Bool) : (setLine sig lvl s).adcDone = s.adcDone := by cases sig <;> rfl
@[simp] theorem setLine_adcResult (sig : Sig) (lvl : Bool) : (setLine sig lvl s).adcResult = s.adcResult := by cases sig <;> rfl
@[simp] theorem setLine_sensorConfigured (sig : Sig) (lvl : Bool) : (setLine sig lvl s).sensorConfigured = s.sensorConfigured := by cases sig <;> rfl
@[simp] theorem setLine_sensorPending (sig : Sig) (lvl : Bool) : (setLine sig lvl s).sensorPending = s.sensorPending := by cases sig <;> rfl
@[simp] theorem setLine_fault (sig : Sig) (lvl : Bool) : (setLine sig lvl s).fault = s.fault := by cases sig <;> rfl
@[simp] theorem setLine_script (sig : Sig) (lvl : Bool) : (setLine sig lvl s).script = s.script := by cases sig <;> rfl
@[simp] theorem setLine_resume (sig : Sig) (lvl : Bool) : (setLine sig lvl s).resume = s.resume := by cases sig <;> rfl
@[simp] theorem setLine_turns (sig : Sig) (lvl : Bool) : (setLine sig lvl s).turns = s.turns := by cases sig <;> rfl
@[simp] theorem setLine_readings (sig : Sig) (lvl : Bool) : (setLine sig lvl s).readings = s.readings := by cases sig <;> rfl
@[simp] theorem setLine_draws (sig : Sig) (lvl : Bool) : (setLine sig lvl s).draws = s.draws := by cases sig <;> rfl
@[simp] theorem setLine_frame (sig : Sig) (lvl : Bool) : (setLine sig lvl s).frame = s.frame := by cases sig <;> rfl
@[simp] theorem setLine_bit (sig : Sig) (lvl : Bool) : (setLine sig lvl s).bit = s.bit := by cases sig <;> rfl

/-! A link primitive writes `frame`, `bit`, the lines, the trace and the receiver only. -/

@[simp] theorem applyPrim_cfg (p : Prim) : (applyPrim s p).cfg = s.cfg := by cases p <;> simp [applyPrim]
@[simp] theorem applyPrim_phase (p : Prim) : (applyPrim s p).phase = s.phase := by cases p <;> simp [applyPrim]
@[simp] theorem applyPrim_cp (p : Prim) : (applyPrim s p).cp = s.cp := by cases p <;> simp [applyPrim]
@[simp] theorem applyPrim_rest (p : Prim) : (applyPrim s p).rest = s.rest := by cases p <;> simp [applyPrim]
@[simp] theorem applyPrim_acc (p : Prim) : (applyPrim s p).acc = s.acc := by cases p <;> simp [applyPrim]
@[simp] theorem applyPrim_n (p : Prim) : (applyPrim s p).n = s.n := by cases p <;> simp [applyPrim]
@[simp] theorem applyPrim_sample (p : Prim) : (applyPrim s p).sample = s.sample := by cases p <;> simp [applyPrim]
@[simp] theorem applyPrim_avg (p : Prim) : (applyPrim s p).avg = s.avg := by cases p <;> simp [applyPrim]
@[simp] theorem applyPrim_vccScaled (p : Prim) : (applyPrim s p).vccScaled = s.vccScaled := by cases p <;> simp [applyPrim]
@[simp] theorem applyPrim_round (p : Prim) : (applyPrim s p).round = s.round := by cases p <;> simp [applyPrim]
@[simp] theorem applyPrim_reading (p : Prim) : (applyPrim s p).reading = s.reading := by cases p <;> simp [applyPrim]
@[simp] theorem applyPrim_dig (p : Prim) : (applyPrim s p).dig = s.dig := by cases p <;> simp [applyPrim]
@[simp] theorem applyPrim_dp (p : Prim) : (applyPrim s p).dp = s.dp := by cases p <;> simp [applyPrim]
@[simp] theorem applyPrim_adcEnabled (p : Prim) : (applyPrim s p).adcEnabled = s.adcEnabled := by cases p <;> simp [applyPrim]
@[simp] theorem applyPrim_adcSel (p : Prim) : (applyPrim s p).adcSel = s.adcSel := by cases p <;> simp [applyPrim]
@[simp] theorem applyPrim_adcBusy (p : Prim) : (applyPrim s p).adcBusy = s.adcBusy := by cases p <;> simp [applyPrim]
@[simp] theorem applyPrim_adcDone (p : Prim) : (applyPrim s p).adcDone = s.adcDone := by cases p <;> simp [applyPrim]
@[simp] theorem applyPrim_adcResult (p : Prim) : (applyPrim s p).adcResult = s.adcResult := by cases p <;> simp [applyPrim]
@[simp] theorem applyPrim_sensorConfigured (p : Prim) : (applyPrim s p).sensorConfigured = s.sensorConfigured := by cases p <;> simp [applyPrim]
@[simp] theorem applyPrim_sensorPending (p : Prim) : (applyPrim s p).sensorPending = s.sensorPending := by cases p <;> simp [applyPrim]
@[simp] theorem applyPrim_fault (p : Prim) : (applyPrim s p).fault = s.fault := by cases p <;> simp [applyPrim]
@[simp] theorem applyPrim_script (p : Prim) : (applyPrim s p).script = s.script := by cases p <;> simp [applyPrim]
@[simp] theorem applyPrim_resume (p : Prim) : (applyPrim s p).resume = s.resume := by cases p <;> simp [applyPrim]
@[simp] theorem applyPrim_turns (p : Prim) : (applyPrim s p).turns = s.turns := by cases p <;> simp [applyPrim]
@[simp] theorem applyPrim_readings (p : Prim) : (applyPrim s p).readings = s.readings := by cases p <;> simp [applyPrim]
@[simp] theorem applyPrim_draws (p : Prim) : (applyPrim s p).draws = s.draws := by cases p <;> simp [applyPrim]

/-! So does any list of them. -/

/-- A field no primitive writes is written by no list of primitives. -/
theorem runPrims_keeps {α : Type} (f : State → α) (h : ∀ s p, f (applyPrim s p) = f s) (ps : List Prim) :
    ∀ s, f (runPrims ps s) = f s := by
  induction ps with
  | nil => intro s; rfl
  | cons p ps ih => intro s; exact (ih _).trans (h s p)

@[simp] theorem runPrims_cfg (ps : List Prim) : (runPrims ps s).cfg = s.cfg :=
  runPrims_keeps State.cfg applyPrim_cfg ps s
@[simp] theorem runPrims_phase (ps : List Prim) : (runPrims ps s).phase = s.phase :=
  runPrims_keeps State.phase applyPrim_phase ps s
@[simp] theorem runPrims_cp (ps : List Prim) : (runPrims ps s).cp = s.cp :=
  runPrims_keeps State.cp applyPrim_cp ps s
@[simp] theorem runPrims_rest (ps : List Prim) : (runPrims ps s).rest = s.rest :=
  runPrims_keeps State.rest applyPrim_rest ps s
@[simp] theorem runPrims_acc (ps : List Prim) : (runPrims ps s).acc = s.acc :=
  runPrims_keeps State.acc applyPrim_acc ps s
@[simp] theorem runPrims_n (ps : List Prim) : (runPrims ps s).n = s.n :=
  runPrims_keeps State.n applyPrim_n ps s
@[simp] theorem runPrims_sample (ps : List Prim) : (runPrims ps s).sample = s.sample :=
  runPrims_keeps State.sample applyPrim_sample ps s
@[simp] theorem runPrims_avg (ps : List Prim) : (runPrims ps s).avg = s.avg :=
  runPrims_keeps State.avg applyPrim_avg ps s
@[simp] theorem runPrims_vccScaled (ps : List Prim) : (runPrims ps s).vccScaled = s.vccScaled :=
  runPrims_keeps State.vccScaled applyPrim_vccScaled ps s
@[simp] theorem runPrims_round (ps : List Prim) : (runPrims ps s).round = s.round :=
  runPrims_keeps State.round applyPrim_round ps s
@[simp] theorem runPrims_reading (ps : List Prim) : (runPrims ps s).reading = s.reading :=
  runPrims_keeps State.reading applyPrim_reading ps s
@[simp] theorem runPrims_dig (ps : List Prim) : (runPrims ps s).dig = s.dig :=
  runPrims_keeps State.dig applyPrim_dig ps s
@[simp] theorem runPrims_dp (ps : List Prim) : (runPrims ps s).dp = s.dp :=
  runPrims_keeps State.dp applyPrim_dp ps s
@[simp] theorem runPrims_adcEnabled (ps : List Prim) : (runPrims ps s).adcEnabled = s.adcEnabled :=
  runPrims_keeps State.adcEnabled applyPrim_adcEnabled ps s
@[simp] theorem runPrims_adcSel (ps : List Prim) : (runPrims ps s).adcSel = s.adcSel :=
  runPrims_keeps State.adcSel applyPrim_adcSel ps s
@[simp] theorem runPrims_adcBusy (ps : List Prim) : (runPrims ps s).adcBusy = s.adcBusy :=
  runPrims_keeps State.adcBusy applyPrim_adcBusy ps s
@[simp] theorem runPrims_adcDone (ps : List Prim) : (runPrims ps s).adcDone = s.adcDone :=
  runPrims_keeps State.adcDone applyPrim_adcDone ps s
@[simp] theorem runPrims_adcResult (ps : List Prim) : (runPrims ps s).adcResult = s.adcResult :=
  runPrims_keeps State.adcResult applyPrim_adcResult ps s
@[simp] theorem runPrims_sensorConfigured (ps : List Prim) : (runPrims ps s).sensorConfigured = s.sensorConfigured :=
  runPrims_keeps State.sensorConfigured applyPrim_sensorConfigured ps s
@[simp] theorem runPrims_sensorPending (ps : List Prim) : (runPrims ps s).sensorPending = s.sensorPending :=
  runPrims_keeps State.sensorPending applyPrim_sensorPending ps s
@[simp] theorem runPrims_fault (ps : List Prim) : (runPrims ps s).fault = s.fault :=
  runPrims_keeps State.fault applyPrim_fault ps s
@[simp] theorem runPrims_script (ps : List Prim) : (runPrims ps s).script = s.script :=
  runPrims_keeps State.script applyPrim_script ps s
@[simp] theorem runPrims_resume (ps : List Prim) : (runPrims ps s).resume = s.resume :=
  runPrims_keeps State.resume applyPrim_resume ps s
@[simp] theorem runPrims_turns (ps : List Prim) : (runPrims ps s).turns = s.turns :=
  runPrims_keeps State.turns applyPrim_turns ps s
@[simp] theorem runPrims_readings (ps : List Prim) : (runPrims ps s).readings = s.readings :=
  runPrims_keeps State.readings applyPrim_readings ps s
@[simp] theorem runPrims_draws (ps : List Prim) : (runPrims ps s).draws = s.draws :=
  runPrims_keeps State.draws applyPrim_draws ps s

end Sys2Proof.Machine
end

