-- ==== Sys2Proof/Laws/Link.lean ====
section
/-! SUPPORT. The serial link: what each of its operations does, said once. -/

namespace Sys2Proof.Machine

@[simp] theorem runPrims_nil (s : State) : runPrims [] s = s := rfl

theorem runPrims_cons (p : Prim) (ps : List Prim) (s : State) :
    runPrims (p :: ps) s = runPrims ps (applyPrim s p) := rfl

theorem runPrims_append (ps qs : List Prim) (s : State) :
    runPrims (ps ++ qs) s = runPrims qs (runPrims ps s) := by
  simp [runPrims, List.foldl_append]

theorem runPrims_bitPrims (k : Fin 16) (s : State) : runPrims (bitPrims k) s = sendFrameBit s k := rfl

theorem runPrims_flatMap_bitPrims (ks : List (Fin 16)) :
    ∀ s, runPrims (ks.flatMap bitPrims) s = ks.foldl sendFrameBit s := by
  induction ks with
  | nil => intro s; rfl
  | cons k ks ih =>
    intro s
    rw [List.flatMap_cons, runPrims_append, ih, runPrims_bitPrims, List.foldl_cons]

/-- WriteCommand is its primitives in order (10_state.md R22). -/
theorem runPrims_framePrims (a v : Byte) (s : State) :
    runPrims (framePrims (frameWord a v)) s = writeCommand a v s := by
  rw [framePrims, runPrims_append, runPrims_append, runPrims_flatMap_bitPrims, writeCommand]
  simp only [runPrims_cons, runPrims_nil, applyPrim]

/-- A primitive does not look at `rest`. -/
theorem applyPrim_rest_update (p : Prim) (s : State) (r : List Prim) :
    applyPrim { s with rest := r } p = { applyPrim s p with rest := r } := by
  cases p with
  | line sig lvl => cases sig <;> rfl
  | _ => rfl

theorem runPrims_rest_update (ps : List Prim) (r : List Prim) :
    ∀ s, runPrims ps { s with rest := r } = { runPrims ps s with rest := r } := by
  induction ps with
  | nil => intro s; rfl
  | cons p ps ih => intro s; rw [runPrims_cons, applyPrim_rest_update, ih]; rfl

/-! One bit. -/

/-- SendBit from `CS = 0`, `CLK = 0` (R113): its events, and one bit shifted into the receiver. -/
theorem sendBit_low (b d : Bool) (s : State) (hcs : s.cs = .driven false) (hclk : s.clk = .driven false)
    (hdin : s.din = .driven d) :
    sendBit b s =
      { s with
        din := .driven b
        events := (bitEvents s.cfg.tLink b).reverse ++ s.events
        rx := s.rx.shiftIn b } := by
  cases s
  simp only at hcs hclk hdin
  subst hcs hclk hdin
  rfl

theorem sendFrameBit_low (k : Fin 16) (d : Bool) (s : State) (hcs : s.cs = .driven false)
    (hclk : s.clk = .driven false) (hdin : s.din = .driven d) :
    sendFrameBit s k =
      { s with
        bit := k
        din := .driven (s.frame.getLsbD k.val)
        events := (bitEvents s.cfg.tLink (s.frame.getLsbD k.val)).reverse ++ s.events
        rx := s.rx.shiftIn (s.frame.getLsbD k.val) } := by
  rw [sendFrameBit, sendBit_low _ d] <;> assumption

/-- WriteCommand's loop from `CS = 0`, `CLK = 0`, over any bits. -/
theorem sendFrameBits_low (ks : List (Fin 16)) :
    ∀ (k : Fin 16) (d : Bool) (s : State), s.cs = .driven false → s.clk = .driven false → s.din = .driven d →
      (k :: ks).foldl sendFrameBit s =
        { s with
          bit := (k :: ks).getLast (List.cons_ne_nil _ _)
          din := .driven (s.frame.getLsbD ((k :: ks).getLast (List.cons_ne_nil _ _)).val)
          events := ((k :: ks).flatMap fun j : Fin 16 => bitEvents s.cfg.tLink (s.frame.getLsbD j.val)).reverse ++ s.events
          rx := ((k :: ks).map fun j : Fin 16 => s.frame.getLsbD j.val).foldl Rx.shiftIn s.rx } := by
  induction ks with
  | nil =>
    intro k d s hcs hclk hdin
    simp [sendFrameBit_low k d s hcs hclk hdin]
  | cons j ks ih =>
    intro k d s hcs hclk hdin
    rw [List.foldl_cons, sendFrameBit_low k d s hcs hclk hdin, ih j (s.frame.getLsbD k.val) { s with bit := k, din := .driven (s.frame.getLsbD k.val), events := (bitEvents s.cfg.tLink (s.frame.getLsbD k.val)).reverse ++ s.events, rx := s.rx.shiftIn (s.frame.getLsbD k.val) } hcs hclk rfl]
    simp

/-- Any bits sent from `CS = 0`, `CLK = 0` (R113, R114). -/
theorem sendBits_low (bs : List Bool) :
    ∀ (b d : Bool) (s : State), s.cs = .driven false → s.clk = .driven false → s.din = .driven d →
      (b :: bs).foldl (fun t x => sendBit x t) s =
        { s with
          din := .driven ((b :: bs).getLast (List.cons_ne_nil _ _))
          events := ((b :: bs).flatMap (bitEvents s.cfg.tLink)).reverse ++ s.events
          rx := (b :: bs).foldl Rx.shiftIn s.rx } := by
  induction bs with
  | nil =>
    intro b d s hcs hclk hdin
    simp [sendBit_low b d s hcs hclk hdin]
  | cons c bs ih =>
    intro b d s hcs hclk hdin
    rw [List.foldl_cons, sendBit_low b d s hcs hclk hdin,
      ih c b { s with
        din := .driven b
        events := (bitEvents s.cfg.tLink b).reverse ++ s.events
        rx := s.rx.shiftIn b } hcs hclk rfl]
    simp

/-! The receiver's shift register. -/

theorem shiftIn_fold_count (bs : List Bool) : ∀ r : Rx, (bs.foldl Rx.shiftIn r).count = r.count + bs.length := by
  induction bs with
  | nil => intro r; rfl
  | cons b bs ih => intro r; simp [ih, Rx.shiftIn]; omega

/-- Sixteen bits, most significant first, fill the shift register (45_display_receiver.md R230). -/
theorem shiftIn_frameBits (w : FrameWord) (r : Rx) :
    (frameBits.map fun k : Fin 16 => w.getLsbD k.val).foldl Rx.shiftIn r = { r with shift := w, count := r.count + 16 } := by
  have h : ∀ x : BitVec 16,
      ((frameBits.map fun k : Fin 16 => w.getLsbD k.val).foldl
        (fun (y : BitVec 16) b => (y <<< 1) ||| (BitVec.ofBool b).setWidth 16) x) = w := by
    intro x
    ext i hi
    simp only [frameBits, List.map_cons, List.map_nil, List.foldl_cons, List.foldl_nil]
    interval_cases i <;> simp
  have g : ∀ (bs : List Bool) (q : Rx), bs.foldl Rx.shiftIn q =
      { q with
        shift := bs.foldl (fun (y : BitVec 16) b => (y <<< 1) ||| (BitVec.ofBool b).setWidth 16) q.shift
        count := q.count + bs.length } := by
    intro bs
    induction bs with
    | nil => intro q; rfl
    | cons b bs ih => intro q; rw [List.foldl_cons, ih]; simp [Rx.shiftIn]; omega
  rw [g, h]
  rfl

/-! The whole frame. -/

/-- WriteCommand's loop over a frame's sixteen bits, from `CS = 0`, `CLK = 0`. -/
theorem sendFrameBits_frame (d : Bool) (s : State) (hcs : s.cs = .driven false) (hclk : s.clk = .driven false)
    (hdin : s.din = .driven d) :
    frameBits.foldl sendFrameBit s =
      { s with
        bit := 0
        din := .driven (s.frame.getLsbD 0)
        events := (frameBits.flatMap fun j : Fin 16 => bitEvents s.cfg.tLink (s.frame.getLsbD j.val)).reverse ++ s.events
        rx := { s.rx with shift := s.frame, count := s.rx.count + 16 } } := by
  rw [← shiftIn_frameBits s.frame s.rx]
  exact sendFrameBits_low _ 15 d s hcs hclk hdin

/-- WriteCommand from idle lines (R115): its events, the lines it leaves, and the receiver's register write. -/
theorem writeCommand_idle (a v : Byte) (d : Bool) (s : State) (hcs : s.cs = .driven true)
    (hclk : s.clk = .driven false) (hdin : s.din = .driven d) :
    writeCommand a v s = afterFrame (frameWord a v) s := by
  rw [writeCommand, sendFrameBits_frame d _ rfl (by simpa using hclk) (by simpa using hdin)]
  cases s
  simp only at hcs hclk hdin
  subst hcs hclk hdin
  simp [setLine, linkDelay, delay, record, drive, Rx.onLine, Rx.latch, Rx.write, afterFrame, frameEvents]

/-! From any lines. -/

/-- WriteCommand's loop over any bits, from any lines. -/
theorem sendFrameBits_any (ks : List (Fin 16)) :
    ∀ s : State,
      (ks.foldl sendFrameBit s).trace =
          s.trace ++ ks.flatMap (fun j : Fin 16 => bitEvents s.cfg.tLink (s.frame.getLsbD j.val)) ∧
        (ks.foldl sendFrameBit s).frame = s.frame ∧ (ks.foldl sendFrameBit s).cfg = s.cfg ∧
        (ks.foldl sendFrameBit s).din =
          (match ks.getLast? with | some k => .driven (s.frame.getLsbD k.val) | none => s.din) ∧
        (ks.foldl sendFrameBit s).clk = (match ks.getLast? with | some _ => .driven false | none => s.clk) := by
  induction ks with
  | nil => intro s; simp
  | cons k ks ih =>
    intro s
    obtain ⟨h1, h2, h3, h4, h5⟩ := ih (sendFrameBit s k)
    rw [List.foldl_cons, h1, h2, h3, h4, h5]
    refine ⟨by simp [sendFrameBit, sendBit, bitEvents, State.trace], by simp [sendFrameBit, sendBit],
      by simp [sendFrameBit, sendBit], ?_, ?_⟩
    · cases ks <;> simp [sendFrameBit, sendBit, List.getLast?_cons]
    · cases ks <;> simp [sendFrameBit, sendBit, List.getLast?_cons]

/-- WriteCommand from any state (R115): its events and the lines it leaves. -/
theorem writeCommand_any (a v : Byte) (s : State) :
    (writeCommand a v s).trace = s.trace ++ frameEvents s.cfg.tLink (frameWord a v) ∧
      (writeCommand a v s).cs = .driven true ∧ (writeCommand a v s).clk = .driven false ∧
      (writeCommand a v s).din = .driven ((frameWord a v).getLsbD 0) := by
  obtain ⟨h1, h2, h3, h4, h5⟩ := sendFrameBits_any frameBits (linkDelay (setLine .cs false { s with frame := frameWord a v }))
  simp only [writeCommand, linkDelay_trace, setLine_trace, h1, setLine_cfg, linkDelay_cfg, h3, linkDelay_cs,
    setLine_cs, linkDelay_clk, setLine_cs_clk, h5, linkDelay_din, setLine_cs_din, h4, linkDelay_frame,
    setLine_frame]
  refine ⟨by simp [frameEvents, State.trace], trivial, ?_, ?_⟩ <;> simp [frameBits]

theorem frameWord_bit0 (a v : Byte) : (frameWord a v).getLsbD 0 = v.getLsbD 0 := by
  simp [frameWord]

end Sys2Proof.Machine
end

