-- ==== Sys2Proof/Laws/Memory.lean ====
section
/-! SUPPORT. The register file as a memory: read after write, and that every operation keeps the canonical
form. -/

namespace Sys2Proof.Machine

theorem Memory.read_write_same (m : Memory) (a : Nat) (v : Byte) : (Memory.write m a v).read a = some v := by
  induction m with
  | nil => simp [Memory.write, Memory.read]
  | cons c cs ih =>
    obtain ⟨b, x⟩ := c
    rw [Memory.write]
    split
    · simp [Memory.read]
    · split
      · simp [Memory.read]
      · rw [Memory.read, if_neg (by assumption)]
        exact ih

theorem Memory.read_write_other (m : Memory) (a b : Nat) (v : Byte) (h : b ≠ a) :
    (Memory.write m a v).read b = Memory.read m b := by
  induction m with
  | nil => simp [Memory.write, Memory.read, h]
  | cons c cs ih =>
    obtain ⟨k, x⟩ := c
    rw [Memory.write]
    split
    · simp [Memory.read, h]
    · split
      · subst_vars
        simp [Memory.read, h]
      · simp [Memory.read, ih]

theorem Memory.wfFrom_mono (m : Memory) {lo hi : Nat} (h : lo ≤ hi) (hm : Memory.wfFrom hi m = true) :
    Memory.wfFrom lo m = true := by
  cases m with
  | nil => rfl
  | cons c cs =>
    obtain ⟨b, x⟩ := c
    simp only [Memory.wfFrom, Bool.and_eq_true, decide_eq_true_eq] at hm ⊢
    exact ⟨⟨by omega, hm.1.2⟩, hm.2⟩

theorem Memory.write_wfFrom (m : Memory) (a : Nat) (v : Byte) (ha : a < 256) :
    ∀ lo, lo ≤ a → Memory.wfFrom lo m = true → Memory.wfFrom lo (Memory.write m a v) = true := by
  induction m with
  | nil => intro lo h _; simp [Memory.write, Memory.wfFrom, h, ha]
  | cons c cs ih =>
    obtain ⟨b, x⟩ := c
    intro lo h hm
    simp only [Memory.wfFrom, Bool.and_eq_true, decide_eq_true_eq] at hm
    rw [Memory.write]
    split
    · simp only [Memory.wfFrom, Bool.and_eq_true, decide_eq_true_eq]
      exact ⟨⟨h, ha⟩, ⟨by omega, hm.1.2⟩, hm.2⟩
    · split
      · subst_vars
        simp only [Memory.wfFrom, Bool.and_eq_true, decide_eq_true_eq]
        exact hm
      · simp only [Memory.wfFrom, Bool.and_eq_true, decide_eq_true_eq]
        exact ⟨hm.1, ih (b + 1) (by omega) hm.2⟩

/-- A write keeps the canonical form. -/
theorem Memory.write_wf (m : Memory) (a v : Byte) (h : Memory.wf m = true) :
    Memory.wf (Memory.write m a.toNat v) = true :=
  Memory.write_wfFrom m a.toNat v a.isLt 0 (Nat.zero_le _) h

/-! The receiver's registers. -/

theorem Rx.reg_write_same (r : Rx) (a v : Byte) : (r.write a v).reg a = v := by
  simp [Rx.reg, Rx.write, Memory.read_write_same]

theorem Rx.reg_write_other (r : Rx) (a b v : Byte) (h : b ≠ a) : (r.write a v).reg b = r.reg b := by
  have h' : b.toNat ≠ a.toNat := fun e => h (BitVec.eq_of_toNat_eq e)
  simp [Rx.reg, Rx.write, Memory.read_write_other _ _ _ _ h']

/-- The receiver's reaction to any event keeps the canonical form. -/
theorem Rx.onLine_wf (r : Rx) (cs clk din : Line) (sig : Sig) (lvl : Bool) (h : Memory.wf r.cells = true) :
    Memory.wf (r.onLine cs clk din sig lvl).cells = true := by
  unfold Rx.onLine
  split
  · split
    · split
      · exact h
      · exact h
    · split
      · exact h
      · exact h
    · split
      · unfold Rx.latch
        split
        · exact Memory.write_wf _ _ _ h
        · rfl
      · exact h
    · exact h
  · rfl

theorem setLine_wf (sig : Sig) (lvl : Bool) (s : State) (h : Memory.wf s.rx.cells = true) :
    Memory.wf (setLine sig lvl s).rx.cells = true := by
  cases sig <;> exact Rx.onLine_wf _ _ _ _ _ _ h

theorem applyPrim_wf (s : State) (p : Prim) (h : Memory.wf s.rx.cells = true) :
    Memory.wf (applyPrim s p).rx.cells = true := by
  cases p with
  | load w => exact h
  | line sig lvl => exact setLine_wf _ _ _ h
  | dataBit k => exact setLine_wf _ _ _ h
  | linkDelay => exact h

theorem runPrims_wf (ps : List Prim) : ∀ s, Memory.wf s.rx.cells = true → Memory.wf (runPrims ps s).rx.cells = true := by
  induction ps with
  | nil => intro s h; exact h
  | cons p ps ih => intro s h; exact ih _ (applyPrim_wf s p h)

theorem reset_wf : Memory.wf State.reset.rx.cells = true := rfl

end Sys2Proof.Machine
end

