-- ==== Sys2Proof/Laws/Step.lean ====
section
/-! SUPPORT. What a step can do, said once. -/

namespace Sys2Proof.Machine

/-- Every command sends its frame word (30_encoding.md R85). -/
theorem exec_sends (i : Instr) (s : State) :
    exec i s = .next (writeCommand (wordAddr (encode s.cfg i)) (wordValue (encode s.cfg i)) s) := by
  cases i <;>
    simp [exec, execWrDigP0, execWrDigP1, execWrDigP2, execWrDigP3, execWrDecode, execWrIntensity,
      execWrScanlimit, execWrShutdown, execWrTest, setDigit, physAddr, encode]

/-- A frame is sent as WriteCommand sends it, be its word a command's or not. -/
theorem sendWhole_eq (w : FrameWord) (s : State) :
    sendWhole w s = .next (writeCommand (wordAddr w) (wordValue w) s) := by
  unfold sendWhole
  split
  · rename_i i h
    rw [exec_sends]
    simp only [decode] at h
    split_ifs at h <;> cases h <;> simp_all [encode, packDigit_eta]
  · rfl

/-- What the controller's turn can do. -/
theorem controller_next {whole : Bool} {s t : State} (h : controller whole s = .next t) :
    s.phase ≠ .faulted ∧
      ((∃ p ps, s.rest = p :: ps ∧ t = perform whole (p :: ps) s) ∨
        s.rest = [] ∧
          ((∃ w u, plan s = .frame w u ∧
              ((whole = true ∧ t = writeCommand (wordAddr w) (wordValue w) u) ∨
                (whole = false ∧ t = perform false (framePrims w) u))) ∨
            (∃ ps u, plan s = .prims ps u ∧ t = perform whole ps u) ∨ plan s = .act t)) := by
  unfold controller at h
  split at h
  · cases h
  · refine ⟨by assumption, ?_⟩
    split at h
    · rename_i p ps hr
      cases h
      exact .inl ⟨p, ps, hr, rfl⟩
    · rename_i hr
      refine .inr ⟨hr, ?_⟩
      split at h
      · rename_i w u hp
        refine .inl ⟨w, u, hp, ?_⟩
        cases whole with
        | true =>
          rw [if_pos rfl, sendWhole_eq] at h
          injection h with h
          exact .inl ⟨rfl, h.symm⟩
        | false =>
          injection h with h
          exact .inr ⟨rfl, h.symm⟩
      · rename_i ps u hp
        cases h
        exact .inr (.inl ⟨ps, u, hp, rfl⟩)
      · rename_i u hp
        cases h
        exact .inr (.inr hp)
      · cases h

/-- Taking a turn touches the outside world's fields only. -/
theorem takeTurn_eq (s : State) :
    (takeTurn s).2 = { s with turns := (takeTurn s).2.turns, draws := (takeTurn s).2.draws } := by
  unfold takeTurn
  split
  · rfl
  · split
    · split <;> rfl
    · rfl

/-- With no turn listed and no conversion in flight the controller performs one primitive. -/
theorem takeTurn_unlisted {s : State} (h : s.turns = []) (hb : s.adcBusy = false) : takeTurn s = (.prim, s) := by
  simp only [takeTurn, h, hb, Bool.false_eq_true, if_false]

/-- With no turn listed it is the controller's next primitive or the ADC's completion, no whole operation and no
reset (10_state.md R22; log 2, log 3). -/
theorem takeTurn_unlisted_cases {s : State} (h : s.turns = []) :
    (takeTurn s).1 = .prim ∨ ∃ c, (takeTurn s).1 = .adc c := by
  unfold takeTurn
  rw [h]
  dsimp only
  split
  · split
    · exact .inr ⟨_, rfl⟩
    · exact .inl rfl
  · exact .inl rfl

/-- What a step can do: whose turn it is, and that agent's step from the state without the turn. -/
theorem step_next {s t : State} (h : step s = .next t) :
    ((takeTurn s).1 = .run ∧ controller true (takeTurn s).2 = .next t) ∨
      ((takeTurn s).1 = .prim ∧ controller false (takeTurn s).2 = .next t) ∨
      (∃ c, (takeTurn s).1 = .adc c ∧ t = adcComplete c (takeTurn s).2) ∨
      ((takeTurn s).1 = .reset ∧ t = hardReset (takeTurn s).2) := by
  unfold step runTurn at h
  split at h
  · exact .inl ⟨by assumption, h⟩
  · exact .inr (.inl ⟨by assumption, h⟩)
  · rename_i c hc
    cases h
    exact .inr (.inr (.inl ⟨c, hc, rfl⟩))
  · rename_i hc
    cases h
    exact .inr (.inr (.inr ⟨hc, rfl⟩))

theorem rest_nil_update (s : State) (h : s.rest = []) : { s with rest := [] } = s := by
  cases s
  simp only at h
  subst h
  rfl

/-- Performing primitives whole or one at a time comes to the same once `rest` is performed. -/
theorem runPrims_perform (whole : Bool) (ps : List Prim) (s : State) (h : s.rest = []) :
    runPrims (perform whole ps s).rest { perform whole ps s with rest := [] } = runPrims ps s := by
  cases whole with
  | true =>
    have hr : (runPrims ps s).rest = [] := by rw [runPrims_rest, h]
    show runPrims (runPrims ps { s with rest := [] }).rest { runPrims ps { s with rest := [] } with rest := [] } = _
    rw [rest_nil_update s h, hr, runPrims_nil, rest_nil_update _ hr]
  | false =>
    cases ps with
    | nil =>
      show runPrims s.rest { s with rest := [] } = s
      rw [h, runPrims_nil, rest_nil_update s h]
    | cons p qs =>
      show runPrims (applyPrim { s with rest := qs } p).rest { applyPrim { s with rest := qs } p with rest := [] } = _
      rw [applyPrim_rest, ← applyPrim_rest_update, runPrims_cons]
      show runPrims qs (applyPrim { s with rest := [] } p) = _
      rw [rest_nil_update s h]

/-! Runs. -/

theorem coreRun_succ (M : Host.Core) (k : Nat) (s t : M.State) (h : M.step s = .next t) :
    M.run (k + 1) s = M.run k t := by
  simp [Host.Core.run, h]

@[simp] theorem runSteps_zero (s : State) : runSteps 0 s = .next s := rfl

/-- A run goes on from the next state. -/
theorem runSteps_succ {s t : State} (k : Nat) (h : step s = .next t) : runSteps (k + 1) s = runSteps k t :=
  coreRun_succ Sys2Proof.core k s t h

end Sys2Proof.Machine
end

