-- ==== Sys2Proof/Laws/Controller.lean ====
section
/-! SUPPORT. The controller's statements: what a turn of the fixed program does, what a frame leaves alone,
and that turns not yet taken change nothing. -/

namespace Sys2Proof.Machine

/-! Idle lines. -/

theorem linesIdle_cases {s : State} (h : linesIdle s = true) :
    s.cs = .driven true ∧ s.clk = .driven false ∧ ∃ d, s.din = .driven d := by
  simp only [linesIdle, Bool.and_eq_true, beq_iff_eq, bne_iff_ne] at h
  refine ⟨h.1.1, h.1.2, ?_⟩
  cases hd : s.din with
  | z => exact absurd hd h.2
  | driven d => exact ⟨d, rfl⟩

theorem writeCommand_of_linesIdle (a v : Byte) {s : State} (h : linesIdle s = true) :
    writeCommand a v s = afterFrame (frameWord a v) s := by
  obtain ⟨h1, h2, d, h3⟩ := linesIdle_cases h
  exact writeCommand_idle a v d s h1 h2 h3

theorem linesIdle_afterFrame (w : FrameWord) (s : State) : linesIdle (afterFrame w s) = true := rfl

/-- What no primitive changes, no frame changes. -/
theorem writeCommand_keeps {α : Type} (f : State → α) (h : ∀ s p, f (applyPrim s p) = f s) (a v : Byte)
    (s : State) : f (writeCommand a v s) = f s := by
  rw [← runPrims_framePrims]
  exact runPrims_keeps f h _ _

/-! A statement of the fixed program. -/

theorem atStatement_cases {s : State} (h : atStatement s = true) :
    s.phase ≠ .faulted ∧ s.rest = [] ∧ s.script = [] := by
  simp only [atStatement, Bool.and_eq_true, bne_iff_ne, List.isEmpty_iff] at h
  exact ⟨h.1.1, h.1.2, h.2⟩

/-- The controller's turn at a statement of the fixed program (44_controller_fsm.md R200). -/
theorem step_atStatement {s : State} {ts : List Turn} (h : atStatement s = true) (ht : s.turns = .run :: ts) :
    step s =
      match cpPlan { s with turns := ts } with
      | .frame w t => .next (writeCommand (wordAddr w) (wordValue w) t)
      | .prims ps t => .next (perform true ps t)
      | .act t => .next t
      | .refuse r => .refused r := by
  obtain ⟨h1, h2, h3⟩ := atStatement_cases h
  simp only [step, takeTurn, ht, runTurn, controller, h1, h2, plan, readyCall, h3, sendWhole_eq, if_false,
    if_true]
  all_goals (split <;> simp_all)

theorem boundary_not_called {c : Cp} (h : cpBoundary c = true) : cpCalled c = false := by
  cases c with
  | sampler st n cl => cases st <;> cases cl <;> simp_all [cpBoundary, cpCalled]
  | temp st b => cases st <;> cases b <;> simp_all [cpBoundary, cpCalled]
  | formatVoltage cl => cases cl <;> simp_all [cpBoundary]
  | showVoltage p cl => cases cl <;> simp_all [cpBoundary]
  | _ => rfl

theorem homeCp_not_called {s : State} (h : controlOk s = true) : cpCalled (homeCp s) = false := by
  simp only [controlOk, Bool.and_eq_true, Bool.or_eq_true] at h
  unfold homeCp
  split
  · rename_i hc
    simp only [hc] at h
    exact boundary_not_called (by simpa using h.2)
  · rename_i hc
    simpa using hc

/-- A statement that is one primitive or computation. -/
theorem step_act {s t : State} {ts : List Turn} (h : atStatement s = true) (ht : s.turns = .run :: ts)
    (hp : cpPlan { s with turns := ts } = .act t) : step s = .next t := by
  rw [step_atStatement h ht, hp]

/-- A statement that sends a frame from idle lines. -/
theorem step_frame {s t : State} {w : FrameWord} {ts : List Turn} (h : atStatement s = true)
    (hl : linesIdle t = true) (ht : s.turns = .run :: ts) (hp : cpPlan { s with turns := ts } = .frame w t) :
    step s = .next (afterFrame w t) := by
  rw [step_atStatement h ht, hp]
  simp only [writeCommand_of_linesIdle _ _ hl, frameWord_eta]

theorem atStatement_afterFrame (w : FrameWord) (s : State) : atStatement (afterFrame w s) = atStatement s := rfl

/-- A frame's effect does not look at the control point or the turns. -/
theorem afterFrame_cp_turns_update (w : FrameWord) (s : State) (c : Cp) (ts : List Turn) :
    afterFrame w { s with cp := c, turns := ts } = { afterFrame w s with cp := c, turns := ts } := rfl

/-- A digit of the temperature display but the last (44_controller_fsm.md R207). -/
theorem step_temp_show {s : State} {p q : Pos} {called : Bool} {ts : List Turn} (h : atStatement s = true)
    (hl : linesIdle s = true) (hcp : s.cp = .temp (.show p) called) (hq : posNext p = some q)
    (ht : s.turns = .run :: ts) :
    step s =
      .next
        { afterFrame (digitWord p (quadAt s.dig p) (quadAt s.dp p)) s with
          cp := .temp (.show q) called
          turns := ts } :=
  step_frame (t := { s with cp := .temp (.show q) called, turns := ts }) h hl ht
    (by simp only [cpPlan, hcp, tempPlan, hq]; rfl)

/-- A digit of the voltage display but the last (42_voltage_sampler.md R158). -/
theorem step_voltage_show {s : State} {p q : Pos} {c : Caller} {ts : List Turn} (h : atStatement s = true)
    (hl : linesIdle s = true) (hcp : s.cp = .showVoltage p c) (hq : posNext p = some q)
    (ht : s.turns = .run :: ts) :
    step s =
      .next
        { afterFrame (digitWord p (quadAt s.dig p) (quadAt s.dp p)) s with
          cp := .showVoltage q c
          turns := ts } :=
  step_frame (t := { s with cp := .showVoltage q c, turns := ts }) h hl ht
    (by simp only [cpPlan, hcp, hq]; rfl)

/-- The first three digits of a temperature display. -/
theorem runSteps_temp_show {s : State} {called : Bool} {ts : List Turn} (h : atStatement s = true)
    (hl : linesIdle s = true) (hcp : s.cp = .temp (.show .p0) called) (ht : s.turns = .run :: .run :: .run :: ts)
    (k : Nat) :
    runSteps (k + 3) s =
      runSteps k
        { afterFrame (digitWord .p2 s.dig.p2 s.dp.p2)
            (afterFrame (digitWord .p1 s.dig.p1 s.dp.p1) (afterFrame (digitWord .p0 s.dig.p0 s.dp.p0) s)) with
          cp := .temp (.show .p3) called
          turns := ts } := by
  rw [runSteps_succ (k + 2) (step_temp_show h hl hcp rfl ht)]
  generalize h1 : ({ afterFrame (digitWord .p0 (quadAt s.dig .p0) (quadAt s.dp .p0)) s with
    cp := .temp (.show .p1) called, turns := .run :: .run :: ts } : State) = s1
  rw [runSteps_succ (k + 1) (step_temp_show (s := s1) (ts := .run :: ts) (by rw [← h1]; exact h)
    (by rw [← h1]; rfl) (by rw [← h1]) rfl (by rw [← h1]))]
  generalize h2 : ({ afterFrame (digitWord .p1 (quadAt s1.dig .p1) (quadAt s1.dp .p1)) s1 with
    cp := .temp (.show .p2) called, turns := .run :: ts } : State) = s2
  rw [runSteps_succ k (step_temp_show (s := s2) (ts := ts) (by rw [← h2, ← h1]; exact h)
    (by rw [← h2]; rfl) (by rw [← h2]) rfl (by rw [← h2]))]
  subst h2 h1
  rfl

/-- The first three digits of a voltage display. -/
theorem runSteps_voltage_show {s : State} {c : Caller} {ts : List Turn} (h : atStatement s = true)
    (hl : linesIdle s = true) (hcp : s.cp = .showVoltage .p0 c) (ht : s.turns = .run :: .run :: .run :: ts)
    (k : Nat) :
    runSteps (k + 3) s =
      runSteps k
        { afterFrame (digitWord .p2 s.dig.p2 s.dp.p2)
            (afterFrame (digitWord .p1 s.dig.p1 s.dp.p1) (afterFrame (digitWord .p0 s.dig.p0 s.dp.p0) s)) with
          cp := .showVoltage .p3 c
          turns := ts } := by
  rw [runSteps_succ (k + 2) (step_voltage_show h hl hcp rfl ht)]
  generalize h1 : ({ afterFrame (digitWord .p0 (quadAt s.dig .p0) (quadAt s.dp .p0)) s with
    cp := .showVoltage .p1 c, turns := .run :: .run :: ts } : State) = s1
  rw [runSteps_succ (k + 1) (step_voltage_show (s := s1) (ts := .run :: ts) (by rw [← h1]; exact h)
    (by rw [← h1]; rfl) (by rw [← h1]) rfl (by rw [← h1]))]
  generalize h2 : ({ afterFrame (digitWord .p1 (quadAt s1.dig .p1) (quadAt s1.dp .p1)) s1 with
    cp := .showVoltage .p2 c, turns := .run :: ts } : State) = s2
  rw [runSteps_succ k (step_voltage_show (s := s2) (ts := ts) (by rw [← h2, ← h1]; exact h)
    (by rw [← h2]; rfl) (by rw [← h2]) rfl (by rw [← h2]))]
  subst h2 h1
  rfl

theorem plan_ready {s : State} {c : Call} (h : readyCall s = some c) :
    plan s = callPlan c { s with script := s.script.tail } := by
  simp only [plan, h]

/-- A called SetDigit (30_encoding.md R91), wherever the fixed program stands. -/
theorem step_dig_call {s : State} {p : Nat} {q : Pos} {v : Byte} {dp : Bool} {cs : List Call} {ts : List Turn}
    (h : s.phase ≠ .faulted) (hr : s.rest = []) (hl : linesIdle s = true) (hc : cpCalled s.cp = false)
    (hs : s.script = .dig p v dp :: cs) (ht : s.turns = .run :: ts) (hq : posOfNat p = some q) :
    step s = .next { afterFrame (digitWord q v dp) s with script := cs, turns := ts } := by
  have hp : plan { s with turns := ts } = .frame (digitWord q v dp) { s with turns := ts, script := cs } := by
    have hready : readyCall { s with turns := ts } = some (.dig p v dp) := by
      simp only [readyCall, hs, hc]
      rfl
    rw [plan_ready hready]
    simp only [callPlan, hq, hs, List.tail_cons]
  have hw := writeCommand_of_linesIdle (wordAddr (digitWord q v dp)) (wordValue (digitWord q v dp))
    (s := { s with turns := ts, script := cs }) hl
  rw [hr] at hp
  simp only [step, takeTurn, ht, runTurn, controller, h, hr, if_false, hp, if_true, sendWhole_eq]
  rw [hr] at hw
  rw [hw, frameWord_eta, ← hr]
  rfl

/-! A frame's plan. -/

theorem callPlan_frame {c : Call} {u t : State} {w : FrameWord} (h : callPlan c u = .frame w t) : t = u := by
  cases c with
  | dig p v dp =>
    simp only [callPlan] at h
    split at h <;> cases h
    rfl
  | wr a v => cases h; rfl
  | vcc n => simp only [callPlan, samplerPlan] at h; split_ifs at h
  | temp => simp [callPlan, tempPlan] at h
  | delay t => simp [callPlan] at h

theorem afterVoltage_moves (c : Caller) (s : State) :
    afterVoltage c s = { s with cp := (afterVoltage c s).cp } := by
  cases c <;> rfl

/-- M1 moves the control point and the round, no more. -/
theorem turnRound_moves (first : Bool) (s : State) :
    turnRound first s = { s with cp := (turnRound first s).cp, round := (turnRound first s).round } := by
  unfold turnRound
  split <;> rfl

/-- A frame's plan moves the control point, no more. -/
theorem cpPlan_frame {u t : State} {w : FrameWord} (h : cpPlan u = .frame w t) :
    t = { u with cp := t.cp } := by
  unfold cpPlan at h
  split at h
  all_goals try (first | (cases h; done) | (injection h with _ h; rw [← h]; done))
  · unfold samplerPlan at h
    split at h <;> try cases h
    split_ifs at h
  · split at h
    · injection h with _ h; rw [← h]
    · injection h with _ h; rw [← h]; exact afterVoltage_moves _ _
  · unfold tempPlan at h
    split at h <;> try cases h
    · split at h <;> cases h
    · split at h <;> (injection h with _ h; rw [← h]; try rfl)

/-! Turns not yet taken. -/

theorem applyPrim_turns_update (p : Prim) (s : State) (ts : List Turn) :
    applyPrim { s with turns := ts } p = { applyPrim s p with turns := ts } := by
  cases p with
  | line sig lvl => cases sig <;> rfl
  | _ => rfl

theorem runPrims_turns_update (ps : List Prim) (ts : List Turn) :
    ∀ s, runPrims ps { s with turns := ts } = { runPrims ps s with turns := ts } := by
  induction ps with
  | nil => intro s; rfl
  | cons p ps ih => intro s; rw [runPrims_cons, applyPrim_turns_update, ih]; rfl

/-- The primitives in progress, one a step. -/
theorem run_rest (ps : List Prim) : ∀ (s : State) (ts : List Turn), s.phase ≠ .faulted → s.rest = ps →
    runSteps ps.length { s with turns := List.replicate ps.length .prim ++ ts } =
      .next { runPrims ps s with rest := [], turns := ts } := by
  induction ps with
  | nil =>
    intro s ts h1 h2
    cases s
    simp only at h2
    subst h2
    rfl
  | cons p ps ih =>
    intro s ts h1 h2
    have hstep : step { s with turns := List.replicate (ps.length + 1) .prim ++ ts } =
        .next { applyPrim s p with rest := ps, turns := List.replicate ps.length .prim ++ ts } := by
      simp only [step, takeTurn, List.replicate_succ, List.cons_append, runTurn, controller, h1, if_false, h2,
        perform]
      simp only [Bool.false_eq_true, if_false]
      have := applyPrim_rest_update p { s with turns := List.replicate ps.length .prim ++ ts } ps
      simp only at this
      rw [this, applyPrim_turns_update]
    rw [List.length_cons, runSteps_succ _ hstep]
    have := ih { applyPrim s p with rest := ps } ts (by simpa using h1) rfl
    simp only at this
    rw [this, runPrims_rest_update]
    rfl

/-- The primitives in progress, one a step, with no turns listed and no conversion in flight. -/
theorem run_rest_unlisted (ps : List Prim) : ∀ s : State, s.phase ≠ .faulted → s.rest = ps → s.turns = [] →
    s.adcBusy = false → runSteps ps.length s = .next { runPrims ps s with rest := [] } := by
  induction ps with
  | nil =>
    intro s _ h2 _ _
    rw [List.length_nil, runSteps_zero, runPrims_nil, rest_nil_update _ h2]
  | cons p ps ih =>
    intro s h1 h2 h3 h4
    have hstep : step s = .next { applyPrim s p with rest := ps } := by
      simp only [step, takeTurn_unlisted h3 h4, runTurn, controller, h1, if_false, h2, perform]
      exact congrArg Host.Outcome.next (applyPrim_rest_update p s ps)
    rw [List.length_cons, runSteps_succ _ hstep,
      ih { applyPrim s p with rest := ps } (by simpa using h1) rfl (by simpa using h3) (by simpa using h4)]
    rw [runPrims_rest_update]
    rfl

/-- A frame's plan does not look at the turns. -/
theorem plan_turns_update {s u : State} {w : FrameWord} (ts : List Turn) (h : plan s = .frame w u) :
    plan { s with turns := ts } = .frame w { u with turns := ts } := by
  unfold plan at *
  have hr : readyCall { s with turns := ts } = readyCall s := rfl
  rw [hr]
  split at h
  · rename_i c hc
    cases c with
    | dig p v dp => simp only [callPlan] at *; split at h <;> cases h; simp_all
    | wr a v => cases h; rfl
    | vcc n => simp only [callPlan, samplerPlan] at h; split_ifs at h
    | temp => simp [callPlan, tempPlan] at h
    | delay t => simp [callPlan] at h
  · unfold cpPlan at *
    have e : ({ s with turns := ts } : State).cp = s.cp := rfl
    rw [e]
    split at h
    all_goals try (cases h; done)
    all_goals rename_i hcp
    all_goals try (cases h; simp only [hcp]; done)
    · simp only [samplerPlan] at h
      split at h <;> try cases h
      split_ifs at h
    · rename_i p c
      simp only [hcp]
      cases hp : posNext p with
      | some q => simp only [hp] at h; cases h; rfl
      | none =>
        simp only [hp] at h
        cases h
        cases c <;> simp only [afterVoltage, shownWord] <;> rfl
    · simp only [hcp]
      unfold tempPlan at *
      split at h <;> try cases h
      · split at h <;> cases h
      · rename_i p
        cases hp : posNext p <;> simp only [hp] at h <;> cases h <;> rfl

end Sys2Proof.Machine
end

