-- ==== Sys2Proof/Laws/PerInstr.lean ====
section
/-! SUPPORT. Statements made for each command as syntax. -/

namespace Sys2Proof.Laws

/-- The value byte a command carries (30_encoding.md R83, R84). -/
def valueByte (i : Instr) : Byte :=
  match i with
  | .wrDigP0 v dp => packDigit v dp
  | .wrDigP3 v dp => packDigit v dp
  | .wrDigP1 v dp => packDigit v dp
  | .wrDigP2 v dp => packDigit v dp
  | .wrDecode v => v
  | .wrIntensity v => v
  | .wrScanlimit v => v
  | .wrShutdown v => v
  | .wrTest v => v

/-- The value field of the encoding is the command's value byte, whatever the configuration
(30_encoding.md R81, R85). -/
def Value.Statement (i : Instr) : Prop := ∀ c : Config, wordValue (encode c i) = valueByte i

theorem Value.wrDigP0 (v : Byte) (dp : Bool) : Value.Statement (.wrDigP0 v dp) := fun _ => wordValue_frameWord _ _
theorem Value.wrDigP3 (v : Byte) (dp : Bool) : Value.Statement (.wrDigP3 v dp) := fun _ => wordValue_frameWord _ _
theorem Value.wrDigP1 (v : Byte) (dp : Bool) : Value.Statement (.wrDigP1 v dp) := fun _ => wordValue_frameWord _ _
theorem Value.wrDigP2 (v : Byte) (dp : Bool) : Value.Statement (.wrDigP2 v dp) := fun _ => wordValue_frameWord _ _
theorem Value.wrDecode (v : Byte) : Value.Statement (.wrDecode v) := fun _ => wordValue_frameWord _ _
theorem Value.wrIntensity (v : Byte) : Value.Statement (.wrIntensity v) := fun _ => wordValue_frameWord _ _
theorem Value.wrScanlimit (v : Byte) : Value.Statement (.wrScanlimit v) := fun _ => wordValue_frameWord _ _
theorem Value.wrShutdown (v : Byte) : Value.Statement (.wrShutdown v) := fun _ => wordValue_frameWord _ _
theorem Value.wrTest (v : Byte) : Value.Statement (.wrTest v) := fun _ => wordValue_frameWord _ _

end Sys2Proof.Laws
end

