-- ==== Sys2Proof/Laws/Plan.lean ====
section
/-! SUPPORT. What the controller's plan does to the parts of the state no primitive touches. -/

namespace Sys2Proof.Machine

/-- The state a plan goes on from. -/
def planState : Plan → Option State
  | .frame _ u => some u
  | .prims _ u => some u
  | .act u => some u
  | .refuse _ => none

/-- Of what no primitive changes, the controller's turn changes what its plan does. -/
theorem controller_keeps {α : Type} (f : State → α) (hf : ∀ s p, f (applyPrim s p) = f s) (hr : ∀ s r, f {s with rest := r} = f s)
   {whole : Bool} {s t : State} (h : controller whole s = .next t) :
   s.phase ≠ .faulted ∧ (f t = f s ∧ s.rest ≠ [] ∨ s.rest = [] ∧ ∃ u, f t = f u ∧ planState (plan s) = some u) := by
  have hp : ∀ b ps s, f (perform b ps s) = f s := by
    intro b ps s
    unfold perform
    split
    · rw [runPrims_keeps f hf, hr]
    · split
      · rfl
      · rw [hf, hr]
  obtain ⟨h0, h⟩ := controller_next h
  refine ⟨h0, ?_⟩
  rcases h with ⟨p, ps, h1, rfl⟩ | ⟨h1, h⟩
  · exact .inl ⟨hp _ _ _, by simp [h1]⟩
  · refine .inr ⟨h1, ?_⟩
    rcases h with ⟨w, u, h2, h3⟩ | ⟨ps, u, h2, rfl⟩ | h2
    · refine ⟨u, ?_, by simp [h2, planState]⟩
      rcases h3 with ⟨_, rfl⟩ | ⟨_, rfl⟩
      · exact writeCommand_keeps f hf _ _ _
      · exact hp _ _ _
    · exact ⟨u, hp _ _ _, by simp [h2, planState]⟩
    · exact ⟨t, rfl, by simp [h2, planState]⟩

/-- A plan is a ready call's or the control point's. -/
theorem plan_cases {s u : State} (h : planState (plan s) = some u) : 
   (∃ c cs, readyCall s = some c ∧ s.script = c :: cs ∧ planState (callPlan c {s with script := cs}) = some u) ∨ (readyCall s = none ∧ planState (cpPlan s) = some u) := by
  unfold plan at h
  split at h
  · rename_i c hc
    have : ∃ cs, s.script = c :: cs := by
      unfold readyCall at hc
      split at hc
      · cases hc
      · rename_i c' cs hs
        refine ⟨cs, ?_⟩
        rw [hs]
        split_ifs at hc <;> cases c' <;> simp_all
    obtain ⟨cs, hs⟩ := this
    exact .inl ⟨c, cs, hc, hs, by rw [hs] at h; exact h⟩
  · exact .inr ⟨by assumption, h⟩

/-- A property no primitive and no turn touches, and that the plan, the ADC and a reset keep, every step
keeps. -/
theorem step_keeps (f : State → Bool) (hf : ∀ s p, f (applyPrim s p) = f s) (hr : ∀ s r, f {s with rest := r} = f s)
   (hw : ∀ s ts d, f {s with turns := ts, draws := d} = f s)
   (hplan : ∀ s u, s.phase ≠ .faulted → f s = true → planState (plan s) = some u → f u = true)
   (hadc : ∀ s c, f s = true → f (adcComplete c s) = true)
   (hreset : ∀ s, f s = true → f (hardReset s) = true) {s t : State} (h : f s = true) (hs : step s = .next t) : f t = true := by
  have e := takeTurn_eq s
  have h' : f (takeTurn s).2 = true := by rw [e, hw]; exact h
  rcases step_next hs with ⟨_, g⟩ | ⟨_, g⟩ | ⟨c, hc, rfl⟩ | ⟨_, rfl⟩
  · obtain ⟨g0, g⟩ := controller_keeps f hf hr g
    rcases g with ⟨g, _⟩ | ⟨_, u, g1, g2⟩
    · rw [g]; exact h'
    · rw [g1]; exact hplan _ _ g0 h' g2
  · obtain ⟨g0, g⟩ := controller_keeps f hf hr g
    rcases g with ⟨g, _⟩ | ⟨_, u, g1, g2⟩
    · rw [g]; exact h'
    · rw [g1]; exact hplan _ _ g0 h' g2
  · exact hadc _ _ h'
  · exact hreset _ h'

/-- When a call is ready. -/
theorem readyCall_cases {s : State} {c : Call} (h : readyCall s = some c) : cpCalled s.cp = false ∧ ((∃ n, c = .vcc n) ∨ c = .temp → cpBoundary s.cp = true) := by
  unfold readyCall at h
  split at h
  · cases h
  · rename_i c' cs hs
    split_ifs at h with hc
    all_goals refine ⟨by simpa using hc, ?_⟩
    all_goals cases c' <;> simp_all
    all_goals subst h; simp

/-- Only ConfigurePins touches the receiver other than through line events (log 24). -/
theorem plan_rx {v u : State} (h : planState (plan v) = some u) : u.rx = v.rx ∨ u.rx = v.rx.havoc := by
  rcases plan_cases h with ⟨c, cs, h5, h6, h7⟩ | ⟨h5, h7⟩
  · left
    cases c
    · simp [callPlan, planState] at h7; rw [← h7]
    · simp only [callPlan] at h7; split at h7 <;> simp [planState] at h7; rw [← h7]
    · simp only [callPlan, samplerPlan] at h7; split_ifs at h7 <;> simp [planState] at h7; rw [← h7]; rfl
    · simp only [callPlan, tempPlan] at h7; simp [planState] at h7; rw [← h7]; rfl
    · simp only [callPlan] at h7; simp [planState] at h7; rw [← h7]; rfl
  · unfold cpPlan at h7
    split at h7
    all_goals rename_i hcp
    all_goals try (simp only [planState, Option.some.injEq] at h7; subst h7; first | exact .inl rfl | exact .inr rfl)
    all_goals left
    · simp only [planState, Option.some.injEq] at h7; subst h7
      unfold startup; split <;> rfl
    · rename_i st n c
      unfold samplerPlan at h7; split at h7
      all_goals (try split_ifs at h7); all_goals (try (simp only [planState, Option.some.injEq, reduceCtorEq] at h7)); all_goals (try subst h7)
      all_goals first | rfl | skip
      · unfold scaleVcc; split_ifs <;> rfl
      · unfold scaleVcc; split_ifs; rfl
    · split at h7 <;> simp only [planState, Option.some.injEq] at h7 <;> subst h7
      · rfl
      · unfold afterVoltage; split <;> rfl
    · simp only [planState, Option.some.injEq] at h7; subst h7
      rw [turnRound_moves]
    · unfold tempPlan at h7; split at h7
      all_goals (try split at h7); all_goals (try (simp only [planState, Option.some.injEq, reduceCtorEq] at h7)); all_goals (try subst h7)
      all_goals rfl

theorem perform_wf (b : Bool) (ps : List Prim) (s : State) (h : Memory.wf s.rx.cells = true) : Memory.wf (perform b ps s).rx.cells = true := by
  unfold perform
  split
  · exact runPrims_wf _ _ h
  · split
    · exact h
    · exact applyPrim_wf _ _ h

/-- A plan adds at most one event, no line event, before its frame or primitives. -/
theorem plan_events {v u : State} (h : planState (plan v) = some u) :
    u.cfg = v.cfg ∧ u.rest = v.rest ∧ (u.events = v.events ∨ ∃ e, isLine e = false ∧ u.events = e :: v.events) := by
  have A : ∀ x y : State, x.cfg = y.cfg → x.rest = y.rest → x.events = y.events → x.cfg = y.cfg ∧ x.rest = y.rest ∧ (x.events = y.events ∨ ∃ e, isLine e = false ∧ x.events = e :: y.events) := fun _ _ a b c => ⟨a, b, .inl c⟩
  have B : ∀ (x y : State) (e : Event), x.cfg = y.cfg → x.rest = y.rest → x.events = e :: y.events → isLine e = false → x.cfg = y.cfg ∧ x.rest = y.rest ∧ (x.events = y.events ∨ ∃ e, isLine e = false ∧ x.events = e :: y.events) := fun _ _ e a b c d => ⟨a, b, .inr ⟨e, d, c⟩⟩
  rcases plan_cases h with ⟨c, cs, h5, h6, h7⟩ | ⟨h5, h7⟩
  · cases c
    · simp [callPlan, planState] at h7; rw [← h7]; exact A _ _ rfl rfl rfl
    · simp only [callPlan] at h7; split at h7 <;> simp [planState] at h7; rw [← h7]; exact A _ _ rfl rfl rfl
    · simp only [callPlan, samplerPlan] at h7; split_ifs at h7 <;> simp [planState] at h7; rw [← h7]; exact B _ _ _ rfl rfl rfl rfl
    · simp only [callPlan, tempPlan] at h7; simp [planState] at h7; rw [← h7]; exact B _ _ _ rfl rfl rfl rfl
    · simp only [callPlan] at h7; simp [planState] at h7; rw [← h7]; exact B _ _ _ rfl rfl rfl rfl
  · unfold cpPlan at h7
    split at h7
    all_goals rename_i hcp
    all_goals try (simp only [planState, Option.some.injEq] at h7; subst h7; first | exact A _ _ rfl rfl rfl | exact B _ _ _ rfl rfl rfl rfl)
    · simp only [planState, Option.some.injEq] at h7; subst h7
      unfold startup; split <;> exact A _ _ rfl rfl rfl
    · rename_i st n c
      unfold samplerPlan at h7; split at h7
      all_goals (try split_ifs at h7); all_goals (try (simp only [planState, Option.some.injEq, reduceCtorEq] at h7)); all_goals (try subst h7)
      all_goals first | exact A _ _ rfl rfl rfl | exact B _ _ _ rfl rfl rfl rfl | skip
      · unfold scaleVcc; split_ifs <;> first | exact A _ _ rfl rfl rfl | exact B _ _ _ rfl rfl rfl rfl
      · unfold scaleVcc; split_ifs; exact A _ _ rfl rfl rfl
    · split at h7 <;> simp only [planState, Option.some.injEq] at h7 <;> subst h7
      · exact A _ _ rfl rfl rfl
      · unfold afterVoltage; split <;> exact A _ _ rfl rfl rfl
    · simp only [planState, Option.some.injEq] at h7; subst h7
      rw [turnRound_moves]; exact A _ _ rfl rfl rfl
    · unfold tempPlan at h7; split at h7
      all_goals (try split at h7); all_goals (try (simp only [planState, Option.some.injEq, reduceCtorEq] at h7)); all_goals (try subst h7)
      all_goals first | exact A _ _ rfl rfl rfl | exact B _ _ _ rfl rfl rfl rfl

end Sys2Proof.Machine
end

