-- ==== Sys2Proof/Tests/Slice0.lean ====
section
/-! SUPPORT. Tests: well-formedness, decoding, one step a command, the vectors of spec/95_test_vectors.md, and
for every statement with hypotheses a state that meets them. Expected results are the spec's. -/

namespace Sys2Proof.Tests

open Sys2Proof Sys2Proof.Machine

set_option maxRecDepth 100000

/-! A small concrete state: idle lines, the open parameters at numbers. -/

/-- `V_INTENSITY` = 0x08, as in vector V23. -/
def cfg : Config :=
  { Config.default with
    vIntensity := 0x08
    tDwell := 7
    tConv := 10000
    pinCs := 0
    pinClk := 1
    pinDin := 2
    sensorCfg :=
      { busPort := 0, busDirectionRegister := 0, busInputRegister := 0, pinMask := 1, deviceIndex := 0, alarmLow := 0,
        alarmHigh := 0, resolutionMode := 0 } }

/-- Past Init's I4, the lines idle. -/
def idle : State :=
  { State.reset with
    cfg := cfg
    cp := .i6
    cs := .driven true
    clk := .driven false
    din := .driven false
    adcDone := false
    adcResult := 0
    rx := { cells := [], shift := 0, count := 0, epoch := 0 } }

/-- `idle` at a control point, the controller's turn being next. -/
def at_ (ph : Phase) (c : Cp) : State := { idle with phase := ph, cp := c, turns := [.run] }

/-- The outcome is a next state with a property. -/
def next (o : Host.Outcome State Fault Refusal) (p : State → Bool) : Bool :=
  match o with
  | .next t => p t
  | _ => false

/-- The outcome is the refusal. -/
def refuses (o : Host.Outcome State Fault Refusal) (r : Refusal) : Bool :=
  match o with
  | .refused q => q == r
  | _ => false

/-! Well-formedness: one ill-formed term for each check. -/

theorem test_wf_p0 : (Instr.wrDigP0 0x80 false).WellFormed = false := by decide
theorem test_wf_p3 : (Instr.wrDigP3 0x80 false).WellFormed = false := by decide
theorem test_wf_p1 : (Instr.wrDigP1 0xFF true).WellFormed = false := by decide
theorem test_wf_p2 : (Instr.wrDigP2 0x80 true).WellFormed = false := by decide
theorem test_wf_position : (Call.dig 4 0 false).WellFormed cfg = false := by decide
theorem test_wf_count_zero : (Call.vcc 0).WellFormed cfg = false := by decide
theorem test_wf_count_big : (Call.vcc 4198405).WellFormed cfg = false := by decide
theorem test_wf_addresses_distinct : ({ cfg with aTest := 0x0C } : Config).addressesOk = false := by decide
theorem test_wf_addresses_digit : ({ cfg with aTest := 0x03 } : Config).addressesOk = false := by decide
theorem test_wf_counts : ({ cfg with nSamplesRound := 0 } : Config).countsOk = false := by decide
theorem test_wf_delays : ({ cfg with tLink := 0 } : Config).delaysOk = false := by decide
theorem test_wf_conversion_delay : ({ cfg with tConv := 9999 } : Config).delaysOk = false := by decide
theorem test_wf_intensity : ({ cfg with vIntensity := 0x10 } : Config).intensityOk = false := by decide
theorem test_wf_no_code_bits : ({ cfg with adcBits := 0 } : Config).widthsOk = false := by decide
theorem test_wf_code_above_sum : ({ cfg with adcBits := 33 } : Config).widthsOk = false := by decide
theorem test_wf_no_sign_bit : ({ cfg with fracBits := 16 } : Config).widthsOk = false := by decide
theorem test_wf_config : cfg.WellFormed = true := by decide

/-! Decoding: R85's words, written out (V18 to V23). -/

theorem test_decode_p0 : decodeTableWord 16 0b0000000110000011 = some (.wrDigP0 3 true) := by decide
theorem test_decode_p1 : decodeTableWord 16 0b0000001100000011 = some (.wrDigP1 3 false) := by decide
theorem test_decode_p2 : decodeTableWord 16 0b0000010000000000 = some (.wrDigP2 0 false) := by decide
theorem test_decode_p3 : decodeTableWord 16 0b0000001000000100 = some (.wrDigP3 4 false) := by decide
theorem test_decode_shutdown : decodeTableWord 16 0b0000110000000001 = some (.wrShutdown 0x01) := by decide
theorem test_decode_test : decodeTableWord 16 0b0000111100000000 = some (.wrTest 0x00) := by decide
theorem test_decode_decode : decodeTableWord 16 0b0000100100001111 = some (.wrDecode 0x0F) := by decide
theorem test_decode_intensity : decodeTableWord 16 0b0000101000001000 = some (.wrIntensity 0x08) := by decide
theorem test_decode_scanlimit : decodeTableWord 16 0b0000101100000011 = some (.wrScanlimit 0x03) := by decide
theorem test_decode_unused : decodeTableWord 16 0b0000110100000000 = none := by decide

/-! The commands: V18 to V23, from idle lines. -/

/-- After the command the register holds the byte and the frame was sent. -/
def writes (i : Instr) (w : FrameWord) (cell : Host.Cell) : Bool :=
  next (exec i idle) fun t => t.frame == w && t.rx.cells == [cell] && t.events.length == 100 && linesIdle t

theorem test_wrDigP0 : writes (.wrDigP0 3 true) 0x0183 (1, 0x83) = true := by decide
theorem test_wrDigP1 : writes (.wrDigP1 3 false) 0x0303 (3, 0x03) = true := by decide
theorem test_wrDigP2 : writes (.wrDigP2 0 false) 0x0400 (4, 0x00) = true := by decide
theorem test_wrDigP3 : writes (.wrDigP3 4 false) 0x0204 (2, 0x04) = true := by decide
theorem test_wrShutdown : writes (.wrShutdown 0x01) 0x0C01 (12, 0x01) = true := by decide
theorem test_wrTest : writes (.wrTest 0x00) 0x0F00 (15, 0x00) = true := by decide
theorem test_wrDecode : writes (.wrDecode 0x0F) 0x090F (9, 0x0F) = true := by decide
theorem test_wrIntensity : writes (.wrIntensity 0x08) 0x0A08 (10, 0x08) = true := by decide
theorem test_wrScanlimit : writes (.wrScanlimit 0x03) 0x0B03 (11, 0x03) = true := by decide

/-- V5's sixteen bits. -/
theorem test_frame_bits : dinLevels (writeCommand 0x01 0x83 idle).trace =
    [false, false, false, false, false, false, false, true, true, false, false, false, false, false, true, true] := by
  decide

/-- V2: DIN is set though unchanged. -/
theorem test_sendBit : (sendBit false { idle with cs := .driven false }).trace =
    [.line .din false, .delay 1, .line .clk true, .delay 1, .line .clk false, .delay 1] := by decide

/-- V3. -/
theorem test_sendByte : dinLevels (sendByte 0x83 { idle with cs := .driven false }).trace =
    [true, false, false, false, false, false, true, true] := by decide

/-- V8: a frame of no command of the block is sent all the same. -/
theorem test_raw_frame :
    next (step { idle with script := [.wr 0xFF 0xFF], turns := [.run] }) (fun t => t.rx.cells == [(255, 0xFF)]) = true := by
  decide

/-! The digit byte (V13 to V17). -/

theorem test_pack_ten : packDigit 10 true = 0x8A := by decide
theorem test_pack_sixteen : packDigit 16 false = 0x10 := by decide
theorem test_pack_bit_seven : packDigit 128 false = 0x80 := by decide
theorem test_pack_same_byte : packDigit 127 true = packDigit 255 false := by decide

/-! The voltage (V25, V30, V31, V34, V40, V41). -/

theorem test_average : (average 100 { idle with acc := 33850 }).avg = 338 := by decide
theorem test_scale : (scaleVcc { idle with avg := 338 }).vccScaled = 3304 := by decide
theorem test_divide_by_zero : (scaleVcc { idle with acc := 99, avg := 0 }).fault = some (.vccDivideByZero 99) := by decide
theorem test_voltage_digits : voltageDigits .mod10 3304 = { p0 := 3, p1 := 3, p2 := 0, p3 := 4 } := by decide
theorem test_voltage_mod10 : voltageDigits .mod10 10061 = { p0 := 0, p1 := 0, p2 := 6, p3 := 1 } := by decide
theorem test_voltage_raw : (voltageDigits .raw 1116860).p0 = 92 := by decide

/-! The temperature (V44, V48, V55, V60, V61). -/

theorem test_temp_below_one : formatTemperature 4 .mod10 15 =
    .ok { p0 := 0, p1 := 0, p2 := 9, p3 := 3 } { p0 := false, p1 := true, p2 := false, p3 := false } := by decide
theorem test_temp_low : formatTemperature 4 .mod10 375 =
    .ok { p0 := 2, p1 := 3, p2 := 4, p3 := 3 } { p0 := false, p1 := true, p2 := false, p3 := false } := by decide
theorem test_temp_high : formatTemperature 4 .mod10 1975 =
    .ok { p0 := 1, p1 := 2, p2 := 3, p3 := 4 } { p0 := false, p1 := false, p2 := true, p3 := false } := by decide
theorem test_temp_raw : formatTemperature 4 .raw 32767 =
    .ok { p0 := 20, p1 := 4, p2 := 7, p3 := 9 } { p0 := false, p1 := false, p2 := true, p3 := false } := by decide
theorem test_temp_negative : formatTemperature 4 .mod10 (-1) = .unsupported := by decide

/-! Answers and widths: two's complement and unsigned (00_scope.md R14), and other parameter values. -/

theorem test_adc_code : adcCode cfg 1023 = 1023 ∧ adcCode cfg 1024 = 0 := by decide
theorem test_sensor_value : sensorValue cfg 0xFFFF = -1 ∧ sensorValue cfg (-32768) = -32768 := by decide

/-- 23.5 degrees with one fractional bit. -/
theorem test_temp_one_fraction_bit : formatTemperature 1 .mod10 47 =
    .ok { p0 := 2, p1 := 3, p2 := 5, p3 := 0 } { p0 := false, p1 := true, p2 := false, p3 := false } := by decide

/-- With eight-bit codes acc holds 16843009 of the largest, 255 * 16843009 being 2^32 - 1. -/
theorem test_max_samples : ({ cfg with adcBits := 8 } : Config).maxSamples = 16843009 := by decide

/-! What the display shows (V13, V14, V34, V41). -/

/-- The chip with Init's control registers and four digit registers. -/
def chip (a b c d : Byte) : Rx :=
  { cells := [(1, a), (2, d), (3, b), (4, c), (9, 0x0F), (10, 0x08), (11, 0x03), (12, 0x01), (15, 0x00)]
    shift := 0
    count := 16
    epoch := 0 }

theorem test_shown : shown cfg (chip 0x83 0x03 0x00 0x04) = some "3.304".toList := by decide
theorem test_shown_h : shown cfg (chip 0xDC 0x08 0x06 0x00) = some "H.860".toList := by decide
theorem test_shown_dash_blank : shown cfg (chip 0x0A 0x8F 0x00 0x00) = some "- .00".toList := by decide
theorem test_shown_shutdown : shown cfg ((chip 0x83 0x03 0x00 0x04).write 0x0C 0x00) = some "    ".toList := by decide

/-- Bits 7..4 of the intensity register are ignored (10_state.md R39). -/
theorem test_brightness : brightness cfg ((chip 0x83 0x03 0x00 0x04).write 0x0A 0xF7) = 7 := by decide

/-! The controller: from reset, and V67, V68, V69. -/

/-- I1 after power-on. -/
theorem test_reset_first_step :
    next (step State.reset) (fun t => t.cp == .i2 && t.trace == [.pinsConfigured] && linesDriven t) = true := by decide

/-- R22: with no turns listed a frame is sent one primitive a step, here `frame <- w` and then CS low. -/
theorem test_one_primitive :
    next (runSteps 2 idle) (fun t => t.trace == [.line .cs false] && t.frame == 0x0C01 && t.rest.length == 99) = true := by decide

theorem test_withFetchWord :
    next (step (State.reset.withFetchWord 16 0x0C01)) (fun t => t.frame == 0x0C01 && t.cp == .i1) = true := by decide

theorem test_poll : next (step (at_ .calibratingVoltage (.sampler .poll 100 .single)))
    (fun t => t.trace == [.adcPoll false] && t.cp == .sampler .poll 100 .single) = true := by decide

/-- T5, and in a loaded TEMP the way back. -/
theorem test_again : next (step (at_ .displayingTemperature (.temp .again false))) (fun t => t.cp == .temp .start false) = true ∧
    next (step { at_ .init (.temp .again true) with resume := .i6 }) (fun t => t.cp == .i6) = true := by decide

/-- M1 at the first, the second and past the last of 30 rounds. -/
theorem test_rounds :
    next (step { at_ .calibratingVoltage (.m1 true) with round := 9 }) (fun t => t.round == 1 && t.cp == .sampler .select 100 .multi) = true ∧
      next (step { at_ .calibratingVoltage (.m1 false) with round := 1 }) (fun t => t.round == 2) = true ∧
      next (step { at_ .calibratingVoltage (.m1 false) with round := 30 }) (fun t => t.round == 30 && t.cp == .c1) = true := by decide

theorem test_fault : next (step { at_ .calibratingVoltage (.sampler .scale 100 .single) with acc := 99 })
    (fun t => t.phase == .faulted && t.trace == [.fault .vccDivideByZero]) = true := by decide

theorem test_hard_reset : next (step { at_ .calibratingVoltage (.showVoltage .p2 .single) with turns := [.reset] })
    (fun t => t.cp == .i1 && t.cs == .z && t.rx.cells == []) = true := by decide

theorem test_adc_completes : next (step { at_ .calibratingVoltage (.sampler .poll 100 .single) with adcBusy := true, turns := [.adc 338] })
    (fun t => t.adcDone && !t.adcBusy && t.adcResult == 338) = true := by decide

/-! Witnesses: states that meet the statements' hypotheses, under each statement's name. -/

theorem witness_DecodeInvertsEncode :
    cfg.addressesOk = true ∧ (Instr.wrDigP0 0x7F true).WellFormed = true ∧ (Instr.wrTest 0xFF).WellFormed = true := by decide

theorem witness_EncodeInvertsDecode : decode cfg 0x02FF = some (.wrDigP3 0x7F true) := by decide

theorem witness_SetLineDrivesOneLineAndRecordsIt : Sig.clk ≠ Sig.cs := by decide

theorem witness_WriteCommandFramesTwoBytes : linesIdle idle = true := by decide

theorem witness_FrameBitsGoMostSignificantFirst : linesIdle idle = true := by decide

/-- Within a frame. -/
def framing : State := { idle with cs := .driven false }

theorem witness_SendBitPulsesTheClockOnce : framing.cs = .driven false ∧ framing.clk = .driven false := by decide

theorem witness_SendByteSendsEightBits : framing.cs = .driven false ∧ framing.clk = .driven false := by decide

theorem witness_LatchWritesOnlySixteenBitFrames :
    ({ idle.rx with count := 15 } : Rx).count ≠ 16 ∧ ({ idle.rx with count := 17 } : Rx).count ≠ 16 ∧
      ({ idle.rx with count := 16, shift := 0x0183 } : Rx).count = 16 ∧ (0x02 : Byte) ≠ wordAddr 0x0183 := by decide

theorem witness_CommandFromIdleLinesHasExactlyItsFrame : linesIdle idle = true := by decide

theorem witness_CommandsChangeOnlyTheLinkAndOneRegister :
    (∃ t, exec (.wrTest 0) idle = .next t) ∧ linesIdle idle = true ∧ (0x01 : Byte) ≠ wordAddr (encode cfg (.wrTest 0)) :=
  ⟨⟨_, rfl⟩, by decide, by decide⟩

theorem witness_SameCommandTwiceSendsTheSameFrame :
    linesIdle idle = true ∧ ∃ t u, exec (.wrDigP1 5 false) idle = .next t ∧ exec (.wrDigP1 5 false) t = .next u :=
  ⟨by decide, _, _, rfl, rfl⟩

theorem witness_StepRunsTheDecodedCommand :
    ∃ u t, takeTurn (at_ .init .i6) = (.run, u) ∧ u.phase ≠ .faulted ∧ u.rest = [] ∧ plan u = .frame 0x0C01 t ∧
      decode t.cfg 0x0C01 = some (.wrShutdown 0x01) :=
  ⟨_, _, rfl, by decide, rfl, rfl, by decide⟩

theorem witness_LoadedWordRunsNext :
    controlOk idle = true ∧ idle.phase ≠ .faulted ∧ decode idle.cfg (tableWord 16 0x0183) = some (.wrDigP0 3 true) := by decide

/-- `idle` with one call loaded. -/
def calling (c : Call) : State := { idle with script := [c], turns := [.run] }

theorem witness_RawFrameOfAnyAddressIsSent :
    (calling (.wr 0xFF 0xFF)).phase ≠ .faulted ∧ (calling (.wr 0xFF 0xFF)).rest = [] ∧
      cpCalled (calling (.wr 0xFF 0xFF)).cp = false ∧ (calling (.wr 0xFF 0xFF)).script = [.wr 0xFF 0xFF] ∧
      (calling (.wr 0xFF 0xFF)).turns = [.run] := by decide

/-- V22, and the last position inside. -/
theorem witness_PositionOutsideZeroToThreeIsRefused :
    refuses (step (calling (.dig 4 0 false))) (.positionOutOfRange 4) = true ∧
      next (step (calling (.dig 3 0 false))) (fun t => t.frame == 0x0200) = true := by decide

/-- V33, and the ends of the range. -/
theorem witness_SampleCountOutsideItsRangeIsRefused :
    atStatement (at_ .calibratingVoltage (.sampler .select 0 .single)) = true ∧ cfg.adcBits = 10 ∧
      refuses (step (at_ .calibratingVoltage (.sampler .select 0 .single))) (.sampleCountOutOfRange 0) = true ∧
      refuses (step (at_ .calibratingVoltage (.sampler .select 4198405 .single))) (.sampleCountOutOfRange 4198405) = true ∧
      next (step (at_ .calibratingVoltage (.sampler .select 1 .single))) (fun t => t.adcSel == .bandgapVsVcc) = true ∧
      next (step (at_ .calibratingVoltage (.sampler .select 4198404 .single))) (fun t => t.adcSel == .bandgapVsVcc) = true := by
  decide

theorem witness_OnePrimitiveAtATimeIsTheWholeFrame :
    idle.phase ≠ .faulted ∧ idle.rest = [] ∧ fetch idle = some 0x0C01 ∧ idle.turns = [] ∧ idle.adcBusy = false ∧
      next (step idle) (fun t => t.rest.length == 100) = true := by decide

theorem witness_ReceiverIsAFunctionOfTheLineEvents :
    (∃ t, step (at_ .init .i6) = .next t) ∧ (takeTurn (at_ .init .i6)).1 ≠ .reset := ⟨⟨_, rfl⟩, by decide⟩

theorem witness_FixedProgramSendsOnlyTheNineCommands : idle.script = [] ∧ ∃ t, plan idle = .frame 0x0C01 t :=
  ⟨rfl, _, rfl⟩

theorem witness_AdcCompletesOnlyAConversionInFlight :
    ({ idle with adcBusy := true, turns := [.adc 1023] } : State).turns = [.adc 1023] ∧ 1023 ≤ cfg.maxCode ∧
      ({ idle with adcBusy := true, turns := [.adc 1023] } : State).adcBusy = true ∧
      ({ idle with adcBusy := false, turns := [.adc 0] } : State).adcBusy = false := by decide

theorem witness_OnlyTheAdcSetsAndOnlyClearDoneClearsTheFlag :
    next (step { idle with adcBusy := true, turns := [.adc 5] }) (fun t => t.adcDone != idle.adcDone) = true ∧
      next (step { at_ .calibratingVoltage (.sampler .clearDone 1 .single) with adcDone := true }) (fun t => !t.adcDone) = true := by
  decide

theorem witness_ConversionStartsPollsClearsAndReads :
    (atStatement (at_ .calibratingVoltage (.sampler .start 1 .single)) = true ∧
      (at_ .calibratingVoltage (.sampler .start 1 .single)).cp = .sampler .start 1 .single) ∧
    (atStatement (at_ .calibratingVoltage (.sampler .poll 1 .single)) = true ∧
      (at_ .calibratingVoltage (.sampler .poll 1 .single)).adcDone = false) ∧
    (atStatement { at_ .calibratingVoltage (.sampler .poll 1 .multi) with adcDone := true } = true ∧
      ({ at_ .calibratingVoltage (.sampler .poll 1 .multi) with adcDone := true } : State).cp = .sampler .poll 1 .multi) ∧
    (atStatement (at_ .calibratingVoltage (.sampler .clearDone 1 .single)) = true ∧
      (at_ .calibratingVoltage (.sampler .clearDone 1 .single)).cp = .sampler .clearDone 1 .single) ∧
    (atStatement (at_ .calibratingVoltage (.sampler .read 1 .single)) = true ∧
      (at_ .calibratingVoltage (.sampler .read 1 .single)).cp = .sampler .read 1 .single) := by decide

theorem witness_StuckConversionPollsForEver :
    atStatement (at_ .calibratingVoltage (.sampler .poll 1 .single)) = true ∧
      (at_ .calibratingVoltage (.sampler .poll 1 .single)).cp = .sampler .poll 1 .single ∧
      (at_ .calibratingVoltage (.sampler .poll 1 .single)).adcDone = false := by decide

theorem witness_OneSampleIsAddedToTheSum :
    atStatement (at_ .calibratingVoltage (.sampler .start 1 .single)) = true ∧
      (at_ .calibratingVoltage (.sampler .start 1 .single)).cp = .sampler .start 1 .single ∧
      (at_ .calibratingVoltage (.sampler .start 1 .single)).adcDone = false ∧ 1023 ≤ cfg.maxCode := by decide

theorem witness_AverageAndScaleTruncateOrFault :
    atStatement (at_ .calibratingVoltage (.sampler .average 1 .single)) = true ∧
      (at_ .calibratingVoltage (.sampler .average 1 .single)).cp = .sampler .average 1 .single ∧
      ({ at_ .calibratingVoltage (.sampler .scale 1 .single) with avg := 1 } : State).avg ≠ 0 ∧
      (at_ .calibratingVoltage (.sampler .scale 1 .single)).cp = .sampler .scale 1 .single ∧
      (at_ .calibratingVoltage (.sampler .scale 1 .single)).avg = 0 := by decide

theorem witness_VoltageDigitsAreTheValuesDigits :
    idle.cfg.topDigit = .mod10 ∧ ({ idle with cfg := { cfg with topDigit := .raw } } : State).cfg.topDigit = .raw := by decide

theorem witness_TemperatureBelowHundredLayout :
    (-1 : Int) < 0 ∧ (0 : Int) ≤ 0 ∧ (1599 : Int) < 100 * 2 ^ 4 ∧ (-32768 : Int) < 0 := by decide

theorem witness_TemperatureFromHundredLayout :
    100 * 2 ^ 4 ≤ (1600 : Int) ∧ (15999 : Int) < 1000 * 2 ^ 4 ∧ 100 * 2 ^ 4 ≤ (32767 : Int) := by decide

theorem witness_FractionConversionTruncates :
    (0 : Int) ≤ 0 ∧ (0 : Int) ≤ 1599 ∧ (1599 : Int) < 1600 ∧ (1600 : Int) ≤ 1600 := by decide

theorem witness_SensorCallsSetTheirState :
    ({ idle with readings := [375] } : State).readings = [375] ∧ idle.readings = [] ∧ readingFits cfg 375 = true ∧
      readingFits cfg (-32768) = true ∧ readingFits cfg 32767 = true ∧ readingFits cfg 32768 = false := by decide

/-- At T1 with a reading to come. -/
def sensing (r : Int) : State :=
  { idle with phase := .displayingTemperature, cp := .temp .start false, readings := [r] }

theorem witness_TemperatureIterationShowsTheReading :
    atStatement (sensing 375) = true ∧ linesIdle (sensing 375) = true ∧ (sensing 375).cp = .temp .start false ∧
      (sensing 375).readings = [375] ∧ readingFits (sensing 375).cfg 375 = true ∧
      formatTemperature (sensing 375).cfg.fracBits (sensing 375).cfg.topDigit 375 =
        .ok { p0 := 2, p1 := 3, p2 := 4, p3 := 3 } { p0 := false, p1 := true, p2 := false, p3 := false } := by decide

theorem witness_NegativeReadingSendsNoFrame :
    atStatement (sensing (-1)) = true ∧ (sensing (-1)).cp = .temp .start false ∧ (sensing (-1)).readings = [-1] ∧
      readingFits (sensing (-1)).cfg (-1) = true := by decide

theorem witness_InitSendsTheFiveControlFrames :
    atStatement State.reset = true ∧ State.reset.cp = .i1 ∧ State.reset.cfg.addressesOk = true := by decide

/-- `cfg` with the MultiRound startup of some rounds. -/
def rounds (k : Nat) : Config := { cfg with variant := .multiRound, nRounds := k }

theorem witness_StartupVariantChoosesTheSampling :
    (atStatement (at_ .init .i12) = true ∧ (at_ .init .i12).cp = .i12 ∧ (at_ .init .i12).cfg.variant = .singleAverage) ∧
    (atStatement { at_ .init .i12 with cfg := rounds 30 } = true ∧ (rounds 30).variant = .multiRound) ∧
    (atStatement { at_ .calibratingVoltage (.m1 true) with cfg := rounds 1 } = true ∧
      (at_ .calibratingVoltage (.m1 true)).cp = .m1 true ∧ 1 ≤ (rounds 1).nRounds) ∧
    (atStatement { at_ .calibratingVoltage (.m1 true) with cfg := rounds 0 } = true ∧ (rounds 0).nRounds = 0) := by decide

theorem witness_SingleAverageShowsDwellsAndMovesOn :
    atStatement (at_ .calibratingVoltage (.formatVoltage .single)) = true ∧
      linesIdle (at_ .calibratingVoltage (.formatVoltage .single)) = true ∧
      (at_ .calibratingVoltage (.formatVoltage .single)).cp = .formatVoltage .single := by decide

theorem witness_MultiRoundRepeatsItsRounds :
    (atStatement (at_ .calibratingVoltage (.showVoltage .p3 .multi)) = true ∧
      linesIdle (at_ .calibratingVoltage (.showVoltage .p3 .multi)) = true ∧
      (at_ .calibratingVoltage (.showVoltage .p3 .multi)).cp = .showVoltage .p3 .multi) ∧
    (atStatement (at_ .calibratingVoltage (.m1 false)) = true ∧ (at_ .calibratingVoltage (.m1 false)).cp = .m1 false ∧
      ({ at_ .calibratingVoltage (.m1 false) with round := 29 } : State).round < cfg.nRounds ∧
      cfg.nRounds ≤ ({ at_ .calibratingVoltage (.m1 false) with round := 30 } : State).round) := by decide

theorem witness_ShowProgramSendsFourDigitFrames :
    atStatement idle = true ∧ linesIdle idle = true ∧ cpCalled idle.cp = false := by decide

theorem witness_PhaseChangesOnlyAlongTheStateMachine :
    controlOk (at_ .init .i12) = true ∧
      next (step (at_ .init .i12)) (fun t => t.phase == .calibratingVoltage) = true ∧
      controlOk (at_ .calibratingVoltage .c1) = true ∧
      next (step (at_ .calibratingVoltage .c1)) (fun t => t.phase == .displayingTemperature) = true := by decide

/-- A faulted controller. -/
def faulted : State := { at_ .faulted (.sampler .scale 1 .single) with fault := some (.vccDivideByZero 0) }

theorem witness_FaultedControllerTakesNoStep :
    faulted.phase = .faulted ∧ faulted.turns = [.run] ∧ ({ faulted with turns := [.prim] } : State).turns = [.prim] := by decide

theorem witness_RecordedFaultStaysUntilReset :
    ({ faulted with turns := [.adc 0] } : State).phase = .faulted ∧ (∃ t, step { faulted with turns := [.adc 0] } = .next t) ∧
      (takeTurn { faulted with turns := [.adc 0] }).1 ≠ .reset := ⟨rfl, ⟨_, rfl⟩, by decide⟩

theorem witness_HardResetWorksAtAnyPoint : ({ faulted with turns := [.reset] } : State).turns = [.reset] := rfl

theorem witness_StepKeepsPhaseAndControlPointTogether :
    controlOk (at_ .init .i12) = true ∧ ∃ t, step (at_ .init .i12) = .next t := ⟨by decide, _, rfl⟩

theorem witness_StepKeepsTheSamplerInRange :
    controlOk (at_ .calibratingVoltage (.sampler .clearAcc 1 .single)) = true ∧
      valuesOk (at_ .calibratingVoltage (.sampler .clearAcc 1 .single)) = true ∧
      samplerOk (at_ .calibratingVoltage (.sampler .clearAcc 1 .single)) = true ∧
      ∃ t, step (at_ .calibratingVoltage (.sampler .clearAcc 1 .single)) = .next t :=
  ⟨by decide, by decide, by decide, _, rfl⟩

theorem witness_StepKeepsTheLinesIdleBetweenOperations :
    controlOk (at_ .init .i6) = true ∧ linesOk (at_ .init .i6) = true ∧ ∃ t, step (at_ .init .i6) = .next t :=
  ⟨by decide, by decide, _, rfl⟩

theorem witness_StepKeepsThePortsSetUp :
    controlOk (at_ .init .i5) = true ∧ portsOk (at_ .init .i5) = true ∧ ∃ t, step (at_ .init .i5) = .next t :=
  ⟨by decide, by decide, _, rfl⟩

theorem witness_StepKeepsLinkEventsSpaced :
    linkSpaced (at_ .init .i6) = true ∧ ∃ t, step (at_ .init .i6) = .next t := ⟨by decide, _, rfl⟩

theorem witness_StepKeepsTheRegisterFileCanonical :
    rxCanonical (at_ .init .i6) = true ∧ ∃ t, step (at_ .init .i6) = .next t := ⟨by decide, _, rfl⟩

theorem witness_ConfigurationNeverChanges : ∃ t, step (at_ .init .i6) = .next t := ⟨_, rfl⟩

theorem witness_DisplayShowsTheDigitsSent :
    displayOn cfg (chip 0x83 0x03 0x00 0x04) = true ∧
      (chip 0x83 0x03 0x00 0x04).reg (physAddr .p0) = packDigit 3 true ∧
      (chip 0x83 0x03 0x00 0x04).reg (physAddr .p1) = packDigit 3 false ∧
      (chip 0x83 0x03 0x00 0x04).reg (physAddr .p2) = packDigit 0 false ∧
      (chip 0x83 0x03 0x00 0x04).reg (physAddr .p3) = packDigit 4 false := by decide

theorem witness_IntensityWriteSetsTheBrightnessOnly : linesIdle idle = true ∧ idle.cfg.addressesOk = true := by decide

end Sys2Proof.Tests
end

/-! How a step moves the phase (spec/10_state.md R21). -/

namespace Sys2Proof.Machine

/-- How the controller may move the phase in going from `s` to `t`. -/
inductive PhaseMove (s t : State) : Prop where
  | keeps (hp : t.phase = s.phase)
  /-- The end of Init. -/
  | initEnds (hcp : s.cp = .i12) (hp : t.phase = .calibratingVoltage)
  /-- The end of the startup phase. -/
  | startupEnds (hcp : s.cp = .c1) (hp : t.phase = .displayingTemperature)
  /-- The fault of spec/42_voltage_sampler.md R156. -/
  | faults (hp : t.phase = .faulted) (hf : t.fault = some (.vccDivideByZero s.acc))

@[simp] theorem adcComplete_phase (c : Nat) (s : State) : (adcComplete c s).phase = s.phase := by
  unfold adcComplete
  split <;> rfl

@[simp] theorem hardReset_phase (s : State) : (hardReset s).phase = .init := rfl

@[simp] theorem afterVoltage_phase (c : Caller) (s : State) : (afterVoltage c s).phase = s.phase := by
  rw [afterVoltage_moves]

@[simp] theorem turnRound_phase (first : Bool) (s : State) : (turnRound first s).phase = s.phase := by
  rw [turnRound_moves]

@[simp] theorem startup_phase (s : State) : (startup s).phase = s.phase := by
  unfold startup
  split <;> rfl

/-- Taking a turn leaves alone what depends neither on the turns nor on the draws. -/
theorem takeTurn_keeps {α : Type} (f : State → α) (hf : ∀ s ts d, f { s with turns := ts, draws := d } = f s)
    (s : State) : f (takeTurn s).2 = f s := by
  rw [takeTurn_eq, hf]

/-- Outside phase `Faulted` and outside a call the phase is the control point's. -/
theorem phase_eq_cpPhase {s : State} (h : controlOk s = true) (hf : s.phase ≠ .faulted)
    (hc : cpCalled s.cp = false) : s.phase = cpPhase s.cp := by
  simp only [controlOk, Bool.and_eq_true, Bool.or_eq_true, beq_iff_eq] at h
  obtain ⟨⟨hphase | hphase, -⟩, -⟩ := h
  · exact absurd hphase hf
  · simpa [homeCp, hc] using hphase

/-! The controller's plans. -/

theorem tempPlan_phase {st : TempStep} {called : Bool} {s u : State}
    (h : planState (tempPlan st called s) = some u) : u.phase = s.phase := by
  cases st with
  | start | wait | read | again => cases h; rfl
  | format =>
    simp only [tempPlan] at h
    split at h <;> cases h <;> rfl
  | _ p => cases p <;> cases h <;> rfl

/-- The sampler moves the phase in ScaleVcc of an average of 0 only. -/
theorem samplerPlan_phaseMove {st : SamplerStep} {n : Nat} {c : Caller} {s u : State}
    (h : planState (samplerPlan st n c s) = some u) : PhaseMove s u := by
  cases st with
  | select =>
    simp only [samplerPlan] at h
    split at h <;> cases h
    exact .keeps rfl
  | settle =>
    cases h
    exact .keeps (by split <;> rfl)
  | scale =>
    cases h
    by_cases ha : s.avg = 0
    · simp only [ha, scaleVcc, if_true]
      exact .faults rfl rfl
    · simp only [ha, scaleVcc, if_false]
      exact .keeps rfl
  | _ => cases h; exact .keeps rfl

theorem cpPlan_phaseMove {s u : State} (h : planState (cpPlan s) = some u) : PhaseMove s u := by
  cases hcp : s.cp with
  | i12 =>
    simp only [cpPlan, hcp] at h
    cases h
    exact .initEnds hcp (by simp)
  | c1 =>
    simp only [cpPlan, hcp] at h
    cases h
    exact .startupEnds hcp rfl
  | sampler st n c =>
    simp only [cpPlan, hcp] at h
    exact samplerPlan_phaseMove h
  | temp st called =>
    simp only [cpPlan, hcp] at h
    exact .keeps (tempPlan_phase h)
  | showVoltage p c =>
    simp only [cpPlan, hcp] at h
    cases p <;> cases h <;> exact .keeps (by simp)
  | m1 first =>
    simp only [cpPlan, hcp] at h
    cases h
    exact .keeps (by simp)
  | _ =>
    simp only [cpPlan, hcp] at h
    cases h
    exact .keeps rfl

/-- Making a loaded program's call does not move the phase: a called sampling begins at its first statement. -/
theorem callPlan_phase {c : Call} {s u : State} (h : planState (callPlan c s) = some u) : u.phase = s.phase := by
  cases c with
  | wr | delay | temp => cases h; rfl
  | dig p v dp =>
    simp only [callPlan] at h
    split at h <;> cases h
    rfl
  | vcc n =>
    simp only [callPlan, samplerPlan] at h
    split at h <;> cases h
    rfl

theorem plan_phaseMove {s u : State} (h : planState (plan s) = some u) : PhaseMove s u := by
  obtain ⟨c, cs, -, -, hcall⟩ | ⟨-, hcp⟩ := plan_cases h
  · have hphase := callPlan_phase hcall
    exact .keeps hphase
  · exact cpPlan_phaseMove hcp

/-! The agents' steps. -/

/-- Link primitives touch neither the phase nor the fault, so the controller's turn moves them as its plan does. -/
theorem controller_phaseMove {whole : Bool} {s t : State} (h : controller whole s = .next t) :
    s.phase ≠ .faulted ∧ PhaseMove s t := by
  obtain ⟨hrun, ⟨hkeep, -⟩ | ⟨-, u, htu, hu⟩⟩ :=
    controller_keeps (fun s => (s.phase, s.fault)) (by simp) (fun _ _ => rfl) h
  · exact ⟨hrun, .keeps (congrArg Prod.fst hkeep)⟩
  · obtain ⟨hphase, hfault⟩ := Prod.mk.inj htu
    refine ⟨hrun, ?_⟩
    cases plan_phaseMove hu with
    | keeps hp => exact .keeps (hphase.trans hp)
    | initEnds hcp hp => exact .initEnds hcp (hphase.trans hp)
    | startupEnds hcp hp => exact .startupEnds hcp (hphase.trans hp)
    | faults hp hf => exact .faults (hphase.trans hp) (hfault.trans hf)

/-- A move from the state without the turn is one from the state before it. -/
theorem PhaseMove.of_takeTurn {s t : State} (h : PhaseMove (takeTurn s).2 t) : PhaseMove s t := by
  rw [takeTurn_eq] at h
  cases h with
  | keeps hp => exact .keeps hp
  | initEnds hcp hp => exact .initEnds hcp hp
  | startupEnds hcp hp => exact .startupEnds hcp hp
  | faults hp hf => exact .faults hp hf

/-- A step that changes the phase is a reset or the controller's; the ADC's never does. -/
theorem step_phaseMove {s t : State} (h : step s = .next t) (hne : t.phase ≠ s.phase) :
    ((takeTurn s).1 = .reset ∧ t.phase = .init) ∨ (s.phase ≠ .faulted ∧ PhaseMove s t) := by
  have hphase : (takeTurn s).2.phase = s.phase := takeTurn_keeps State.phase (fun _ _ _ => rfl) s
  have hcontroller {whole : Bool} (hc : controller whole (takeTurn s).2 = .next t) :
      s.phase ≠ .faulted ∧ PhaseMove s t := by
    obtain ⟨hrun, hmove⟩ := controller_phaseMove hc
    exact ⟨hphase ▸ hrun, hmove.of_takeTurn⟩
  obtain ⟨-, hc⟩ | ⟨-, hc⟩ | ⟨c, -, rfl⟩ | ⟨hturn, rfl⟩ := step_next h
  · exact .inr (hcontroller hc)
  · exact .inr (hcontroller hc)
  · exact absurd ((adcComplete_phase c _).trans hphase) hne
  · exact .inl ⟨hturn, hardReset_phase _⟩

/-- Settles O46: a phase change is a reset or one of the controller's moves, and the control point of such a move
says which phase it leaves. -/
theorem phaseChangesOnlyAlongTheStateMachine : Obligations.PhaseChangesOnlyAlongTheStateMachine := by
  intro s t hok hstep hne
  obtain hreset | ⟨hrun, hmove⟩ := step_phaseMove hstep hne
  · exact .inl hreset
  · cases hmove with
    | keeps hp => exact absurd hp hne
    | initEnds hcp hp =>
      exact .inr (.inl ⟨by simpa [hcp, cpPhase] using phase_eq_cpPhase hok hrun (by rw [hcp]; rfl), hcp, hp⟩)
    | startupEnds hcp hp =>
      exact .inr (.inr (.inl ⟨by simpa [hcp, cpPhase] using phase_eq_cpPhase hok hrun (by rw [hcp]; rfl), hcp, hp⟩))
    | faults hp hf => exact .inr (.inr (.inr ⟨hrun, hp, hf⟩))

end Sys2Proof.Machine

/-! The data line within a frame (spec/20_memory.md R63). -/

namespace Sys2Proof.Machine

@[simp] theorem dinLevels_append (es fs : List Event) : dinLevels (es ++ fs) = dinLevels es ++ dinLevels fs :=
  List.filterMap_append

@[simp] theorem dinLevels_bitEvents (t : Micros) (b : Bool) : dinLevels (bitEvents t b) = [b] := rfl

/-- Each bit sent sets the data line once, to that bit. -/
theorem dinLevels_flatMap_bitEvents {α : Type} (t : Micros) (f : α → Bool) (ks : List α) :
    dinLevels (ks.flatMap fun k => bitEvents t (f k)) = ks.map f := by
  induction ks with
  | nil => rfl
  | cons k ks ih => simp [ih]

/-- Only the bits of a frame set the data line: the chip select events around them do not. -/
theorem dinLevels_frameEvents (t : Micros) (w : FrameWord) :
    dinLevels (frameEvents t w) = frameBits.map fun k : Fin 16 => w.getLsbD k.val := by
  have hopen : dinLevels [.line .cs false, .delay t] = [] := rfl
  have hclose : dinLevels [.line .cs true, .delay t] = [] := rfl
  rw [frameEvents, dinLevels_append, dinLevels_append, hopen, hclose, dinLevels_flatMap_bitEvents,
    List.nil_append, List.append_nil]

/-- Bits 15..8 of a frame word are the address byte's (spec/30_encoding.md R81). -/
theorem frameWord_getLsbD_high (a v : Byte) (i : Nat) (hi : i < 8) :
    (frameWord a v).getLsbD (8 + i) = a.getLsbD i := by
  simpa [wordAddr, hi] using congrArg (·.getLsbD i) (wordAddr_frameWord a v)

/-- Bits 7..0 of a frame word are the value byte's (spec/30_encoding.md R81). -/
theorem frameWord_getLsbD_low (a v : Byte) (i : Nat) (hi : i < 8) :
    (frameWord a v).getLsbD i = v.getLsbD i := by
  simpa [wordValue, hi] using congrArg (·.getLsbD i) (wordValue_frameWord a v)

/-- The order of a frame's bits takes the address byte's first, each byte's from bit 7 down. -/
theorem frameBits_vals : frameBits.map Fin.val =
    [7, 6, 5, 4, 3, 2, 1, 0].map (8 + ·) ++ [7, 6, 5, 4, 3, 2, 1, 0] := rfl

/-- The bits of a frame word in the order they are sent are its two bytes' bits, each byte's from bit 7 down. -/
theorem frameBits_map_frameWord (a v : Byte) :
    frameBits.map (fun k : Fin 16 => (frameWord a v).getLsbD k.val) =
      [7, 6, 5, 4, 3, 2, 1, 0].map (fun i => a.getLsbD i) ++ [7, 6, 5, 4, 3, 2, 1, 0].map (fun i => v.getLsbD i) := by
  have hbyte : ∀ i ∈ [7, 6, 5, 4, 3, 2, 1, 0], i < 8 := by decide
  calc frameBits.map (fun k : Fin 16 => (frameWord a v).getLsbD k.val)
      = (frameBits.map Fin.val).map (frameWord a v).getLsbD := by rw [List.map_map]; rfl
    _ = [7, 6, 5, 4, 3, 2, 1, 0].map (fun i => (frameWord a v).getLsbD (8 + i)) ++
          [7, 6, 5, 4, 3, 2, 1, 0].map (fun i => (frameWord a v).getLsbD i) := by
        rw [frameBits_vals, List.map_append, List.map_map]; rfl
    _ = _ := congrArg₂ (· ++ ·)
        (List.map_congr_left fun i hi => frameWord_getLsbD_high a v i (hbyte i hi))
        (List.map_congr_left fun i hi => frameWord_getLsbD_low a v i (hbyte i hi))

/-- Settles O11: WriteCommand adds its frame's events, and the data line's levels in them are the bits of the two
bytes in the order of the frame. -/
theorem frameBitsGoMostSignificantFirst : Obligations.FrameBitsGoMostSignificantFirst := by
  intro a v s _
  obtain ⟨htrace, -⟩ := writeCommand_any a v s
  exact ⟨frameEvents s.cfg.tLink (frameWord a v), htrace,
    (dinLevels_frameEvents _ _).trans (frameBits_map_frameWord a v)⟩

end Sys2Proof.Machine

/-! The block without the receiver (spec/40_serial_link.md R116): nothing the machine does to the rest of the state,
and no outcome of it, depends on the receiver. Each lemma says that of one operation: run from the state with the
receiver hidden, and with the receiver hidden afterwards, it comes to the same. -/

namespace Sys2Proof.Machine

/-- The state with the receiver hidden: a fixed one stands in its place. -/
def State.block (s : State) : State := { s with rx := State.reset.rx }

/-- A plan with the receiver of its state hidden. -/
def Plan.block : Plan → Plan
  | .frame w s => .frame w s.block
  | .prims ps s => .prims ps s.block
  | .act s => .act s.block
  | .refuse r => .refuse r

/-- An outcome with the receiver of its state hidden. -/
def outcomeBlock : Host.Outcome State Fault Refusal → Host.Outcome State Fault Refusal
  | .next s => .next s.block
  | .fault f => .fault f
  | .refused r => .refused r

theorem block_withRx (s : State) (r : Rx) : ({ s with rx := r } : State).block = s.block := rfl

/-- States with one block differ in the receiver only. -/
theorem eq_withRx_of_block_eq {s t : State} (h : t.block = s.block) : t = { s with rx := t.rx } :=
  congrArg (fun u : State => { u with rx := t.rx }) h

/-- Both sides take the same branch when their conditions are the same. -/
theorem block_ite {p : Prop} [Decidable p] {s t s' t' : State} (hs : s.block = s'.block) (ht : t.block = t'.block) :
    (if p then s else t).block = (if p then s' else t').block := by
  split
  · exact hs
  · exact ht

/-! Link primitives. -/

theorem applyPrim_block (s : State) (p : Prim) : (applyPrim s.block p).block = (applyPrim s p).block := by
  cases p with
  | line sig lvl => cases sig <;> rfl
  | _ => rfl

theorem runPrims_block (ps : List Prim) : ∀ s : State, (runPrims ps s.block).block = (runPrims ps s).block := by
  induction ps with
  | nil => intro s; rfl
  | cons p ps ih =>
    intro s
    rw [runPrims_cons, runPrims_cons, ← ih (applyPrim s.block p), applyPrim_block, ih]

theorem perform_block (whole : Bool) (ps : List Prim) (s : State) :
    (perform whole ps s.block).block = (perform whole ps s).block := by
  cases whole with
  | true => exact runPrims_block ps { s with rest := [] }
  | false =>
    cases ps with
    | nil => rfl
    | cons p ps => exact applyPrim_block { s with rest := ps } p

theorem writeCommand_block (a v : Byte) (s : State) :
    (writeCommand a v s.block).block = (writeCommand a v s).block := by
  rw [← runPrims_framePrims, ← runPrims_framePrims, runPrims_block]

/-! The controller's plans. -/

theorem scaleVcc_block (s : State) : (scaleVcc s.block).block = (scaleVcc s).block :=
  block_ite rfl rfl

theorem samplerPlan_block (st : SamplerStep) (n : Nat) (c : Caller) (s : State) :
    (samplerPlan st n c s.block).block = (samplerPlan st n c s).block := by
  cases st with
  | select =>
    by_cases h : 1 ≤ n ∧ n ≤ s.cfg.maxSamples
    · simp only [samplerPlan, if_pos h, if_pos (show 1 ≤ n ∧ n ≤ s.block.cfg.maxSamples from h)]; rfl
    · simp only [samplerPlan, if_neg h, if_neg (show ¬ (1 ≤ n ∧ n ≤ s.block.cfg.maxSamples) from h), Plan.block]
  | settle => exact congrArg Plan.act (block_ite rfl rfl)
  | scale =>
    have hscale := scaleVcc_block s
    exact congrArg Plan.act
      (block_ite hscale (congrArg (fun u : State => { u with cp := .formatVoltage c }) hscale))
  | _ => rfl

theorem tempPlan_block (st : TempStep) (called : Bool) (s : State) :
    (tempPlan st called s.block).block = (tempPlan st called s).block := by
  cases st with
  | start | wait | read | again => rfl
  | format =>
    simp only [tempPlan, State.block]
    cases formatTemperature s.cfg.fracBits s.cfg.topDigit s.reading <;> rfl
  | _ p => cases p <;> rfl

theorem startup_block (s : State) : (startup s.block).block = (startup s).block := by
  simp only [startup, State.block]
  cases s.cfg.variant <;> rfl

theorem turnRound_block (first : Bool) (s : State) : (turnRound first s.block).block = (turnRound first s).block :=
  block_ite rfl rfl

theorem cpPlan_block (s : State) : (cpPlan s.block).block = (cpPlan s).block := by
  have hcp : s.block.cp = s.cp := rfl
  simp only [cpPlan, hcp]
  cases s.cp with
  | sampler st n c => exact samplerPlan_block st n c s
  | temp st called => exact tempPlan_block st called s
  | i12 => exact congrArg Plan.act (startup_block { s with phase := .calibratingVoltage })
  | m1 first => exact congrArg Plan.act (turnRound_block first s)
  | showVoltage p c => cases p <;> cases c <;> rfl
  | _ => rfl

theorem callPlan_block (c : Call) (s : State) : (callPlan c s.block).block = (callPlan c s).block := by
  cases c with
  | vcc n => exact samplerPlan_block .select n .script { s with resume := s.cp }
  | dig p v dp =>
    simp only [callPlan]
    cases posOfNat p <;> rfl
  | _ => rfl

theorem plan_block (s : State) : (plan s.block).block = (plan s).block := by
  have hready : readyCall s.block = readyCall s := rfl
  simp only [plan, hready]
  cases readyCall s with
  | none => exact cpPlan_block s
  | some c => exact callPlan_block c { s with script := s.script.tail }

/-! The agents' turns. -/

/-- What the controller does with a plan. -/
def runPlan (whole : Bool) : Plan → Host.Outcome State Fault Refusal
  | .frame w t => if whole then sendWhole w t else .next (perform false (framePrims w) t)
  | .prims ps t => .next (perform whole ps t)
  | .act t => .next t
  | .refuse r => .refused r

/-- With no operation in progress the controller runs its plan. -/
theorem controller_plan {whole : Bool} {s : State} (hrun : s.phase ≠ .faulted) (hrest : s.rest = []) :
    controller whole s = runPlan whole (plan s) := by
  simp only [controller, hrun, hrest, if_false]
  rfl

theorem runPlan_block (whole : Bool) (p : Plan) : outcomeBlock (runPlan whole p.block) = outcomeBlock (runPlan whole p) := by
  cases p with
  | frame w s =>
    cases whole with
    | true =>
      simp only [Plan.block, runPlan, if_true, sendWhole_eq]
      exact congrArg Host.Outcome.next (writeCommand_block _ _ s)
    | false => exact congrArg Host.Outcome.next (perform_block false (framePrims w) s)
  | prims ps s => exact congrArg Host.Outcome.next (perform_block whole ps s)
  | act s => rfl
  | refuse r => rfl

theorem controller_block (whole : Bool) (s : State) :
    outcomeBlock (controller whole s.block) = outcomeBlock (controller whole s) := by
  by_cases hrun : s.phase = .faulted
  · have hrun' : s.block.phase = .faulted := hrun
    simp only [controller, hrun, hrun', if_true]
    rfl
  · have hrun' : s.block.phase ≠ .faulted := hrun
    cases hrest : s.rest with
    | nil =>
      have hrest' : s.block.rest = [] := hrest
      calc outcomeBlock (controller whole s.block)
          = outcomeBlock (runPlan whole (plan s.block)) := by rw [controller_plan hrun' hrest']
        _ = outcomeBlock (runPlan whole (plan s)) := by rw [← runPlan_block, plan_block, runPlan_block]
        _ = outcomeBlock (controller whole s) := by rw [controller_plan hrun hrest]
    | cons p ps =>
      have hrest' : s.block.rest = p :: ps := hrest
      simp only [controller, hrun, hrun', hrest, hrest', if_false]
      exact congrArg Host.Outcome.next (perform_block whole (p :: ps) s)

theorem adcComplete_block (c : Nat) (s : State) : (adcComplete c s.block).block = (adcComplete c s).block :=
  block_ite rfl rfl

theorem runTurn_block (t : Turn) (s : State) : outcomeBlock (runTurn t s.block) = outcomeBlock (runTurn t s) := by
  cases t with
  | run => exact controller_block true s
  | prim => exact controller_block false s
  | adc c => exact congrArg Host.Outcome.next (adcComplete_block c s)
  | reset => rfl

/-- Whose turn it is does not depend on the receiver. -/
theorem takeTurn_block (s : State) : takeTurn s.block = ((takeTurn s).1, (takeTurn s).2.block) := by
  cases hturns : s.turns with
  | cons t ts => simp only [takeTurn, State.block, hturns]
  | nil =>
    cases hbusy : s.adcBusy with
    | false => rw [takeTurn_unlisted hturns hbusy, takeTurn_unlisted (s := s.block) hturns hbusy]
    | true =>
      simp only [takeTurn, State.block, hturns, hbusy, if_true]
      cases Config.freeAdc s.draws <;> rfl

theorem step_block (s : State) : outcomeBlock (step s.block) = outcomeBlock (step s) := by
  rw [step, takeTurn_block, runTurn_block, step]

theorem of_outcomeBlock_eq_next {o : Host.Outcome State Fault Refusal} {t : State} (h : outcomeBlock o = .next t) :
    ∃ u, o = .next u ∧ u.block = t := by
  cases o with
  | next u => exact ⟨u, rfl, Host.Outcome.next.inj h⟩
  | fault | refused => cases h

theorem of_outcomeBlock_eq_fault {o : Host.Outcome State Fault Refusal} {f : Fault} (h : outcomeBlock o = .fault f) :
    o = .fault f := by
  cases o with
  | fault => exact h
  | next | refused => cases h

theorem of_outcomeBlock_eq_refused {o : Host.Outcome State Fault Refusal} {f : Refusal}
    (h : outcomeBlock o = .refused f) : o = .refused f := by
  cases o with
  | refused => exact h
  | next | fault => cases h

/-- Settles O24: the two states have one block, so their steps' outcomes have one block too. -/
theorem receiverNeverInfluencesTheBlock : Obligations.ReceiverNeverInfluencesTheBlock := by
  intro s r
  have hstep : outcomeBlock (step { s with rx := r }) = outcomeBlock (step s) := by
    rw [← step_block, block_withRx, step_block]
  cases hs : step s with
  | next t =>
    obtain ⟨u, hu, hblock⟩ := of_outcomeBlock_eq_next (hstep.trans (congrArg outcomeBlock hs))
    exact ⟨u.rx, hu.trans (congrArg Host.Outcome.next (eq_withRx_of_block_eq hblock))⟩
  | fault f => exact of_outcomeBlock_eq_fault (hstep.trans (congrArg outcomeBlock hs))
  | refused f => exact of_outcomeBlock_eq_refused (hstep.trans (congrArg outcomeBlock hs))

end Sys2Proof.Machine

/-! Bits sent from any lines (spec/40_serial_link.md R113, R114). -/

namespace Sys2Proof.Machine

@[simp] theorem sendBit_cfg (b : Bool) (s : State) : (sendBit b s).cfg = s.cfg := by simp [sendBit]
@[simp] theorem sendBit_cs (b : Bool) (s : State) : (sendBit b s).cs = s.cs := by simp [sendBit]
@[simp] theorem sendBit_clk (b : Bool) (s : State) : (sendBit b s).clk = .driven false := by simp [sendBit]
@[simp] theorem sendBit_din (b : Bool) (s : State) : (sendBit b s).din = .driven b := by simp [sendBit]

@[simp] theorem sendBit_trace (b : Bool) (s : State) :
    (sendBit b s).trace = s.trace ++ bitEvents s.cfg.tLink b := by
  simp [sendBit, bitEvents]

/-- Settles O8: SendBit's events and final lines are the same from any lines, and the chip select stays as it was. -/
theorem sendBitPulsesTheClockOnce : Obligations.SendBitPulsesTheClockOnce := by
  intro b s hcs _
  exact ⟨sendBit_trace b s, (sendBit_cs b s).trans hcs, sendBit_clk b s, sendBit_din b s⟩

/-- Bits sent one after the other add their events in order and leave the chip select alone. -/
theorem sendBits_any {α : Type} (f : α → Bool) (ks : List α) :
    ∀ s : State,
      (ks.foldl (fun t k => sendBit (f k) t) s).trace =
          s.trace ++ ks.flatMap (fun k => bitEvents s.cfg.tLink (f k)) ∧
        (ks.foldl (fun t k => sendBit (f k) t) s).cs = s.cs := by
  induction ks with
  | nil => intro s; simp
  | cons k ks ih =>
    intro s
    obtain ⟨htrace, hcs⟩ := ih (sendBit (f k) s)
    exact ⟨by simp [htrace], by simp [hcs]⟩

/-- Bit 0 is the last one SendByte sends. -/
theorem sendByte_last (x : Byte) (s : State) :
    sendByte x s = sendBit (x.getLsbD 0) ([7, 6, 5, 4, 3, 2, 1].foldl (fun t i => sendBit (x.getLsbD i) t) s) := rfl

/-- Settles O9: the events are those of the eight bits in order, and the last bit leaves the clock low and the data
line at bit 0. -/
theorem sendByteSendsEightBits : Obligations.SendByteSendsEightBits := by
  intro x s hcs _
  obtain ⟨htrace, hkeep⟩ := sendBits_any x.getLsbD [7, 6, 5, 4, 3, 2, 1, 0] s
  exact ⟨htrace, hkeep.trans hcs, by rw [sendByte_last, sendBit_clk], by rw [sendByte_last, sendBit_din]⟩

end Sys2Proof.Machine

/-! The digit permutation (spec/41_display_register.md R130, R131). -/

namespace Sys2Proof.Machine

@[simp] theorem logicalPos_physAddr (p : Pos) : logicalPos (physAddr p) = some p := by
  cases p <;> rfl

theorem physAddr_injective : Function.Injective physAddr := by
  intro p q h
  have hpos : some p = some q := by rw [← logicalPos_physAddr p, h, logicalPos_physAddr]
  exact Option.some.inj hpos

theorem physAddr_bounds (p : Pos) : 1 ≤ (physAddr p).toNat ∧ (physAddr p).toNat ≤ 4 := by
  cases p <;> decide

theorem exists_physAddr_eq {a : Byte} (hlo : 1 ≤ a.toNat) (hhi : a.toNat ≤ 4) : ∃ p, physAddr p = a := by
  have hcases : a.toNat = 1 ∨ a.toNat = 2 ∨ a.toNat = 3 ∨ a.toNat = 4 := by omega
  obtain h | h | h | h := hcases
  · exact ⟨.p0, BitVec.eq_of_toNat_eq h.symm⟩
  · exact ⟨.p3, BitVec.eq_of_toNat_eq h.symm⟩
  · exact ⟨.p1, BitVec.eq_of_toNat_eq h.symm⟩
  · exact ⟨.p2, BitVec.eq_of_toNat_eq h.symm⟩

theorem physAddr_image (a : Byte) : (∃ p, physAddr p = a) ↔ 1 ≤ a.toNat ∧ a.toNat ≤ 4 := by
  constructor
  · rintro ⟨p, rfl⟩
    exact physAddr_bounds p
  · rintro ⟨hlo, hhi⟩
    exact exists_physAddr_eq hlo hhi

/-- Settles O5: `logicalPos` undoes `physAddr`, so no two positions share an address, and each of the four addresses
has its position. -/
theorem physAddrIsABijectionOntoOneToFour : Obligations.PhysAddrIsABijectionOntoOneToFour :=
  ⟨rfl, rfl, rfl, rfl, fun _ _ h => physAddr_injective h, physAddr_image,
    logicalPos_physAddr .p0, logicalPos_physAddr .p3, logicalPos_physAddr .p1, logicalPos_physAddr .p2⟩

end Sys2Proof.Machine

/-! The temperature formatter (spec/43_temperature_formatter.md R180 to R184). -/

namespace Sys2Proof.Machine

theorem formatTemperature_low {k : Nat} (m : TopDigitMode) {r : Int} (h0 : 0 ≤ r) (hlow : tempInteger k r < 100) :
    formatTemperature k m r =
      .ok (tempDigitsLow k r) { p0 := false, p1 := true, p2 := false, p3 := false } := by
  rw [formatTemperature, if_neg (by omega), if_pos hlow]

theorem formatTemperature_high {k : Nat} (m : TopDigitMode) {r : Int} (h0 : 0 ≤ r) (hhigh : 100 ≤ tempInteger k r) :
    formatTemperature k m r =
      .ok (tempDigitsHigh k m r) { p0 := false, p1 := false, p2 := true, p3 := false } := by
  rw [formatTemperature, if_neg (by omega), if_neg (by omega)]

/-- R186: on a non-negative reading the shift is the division by `2 ^ k`. -/
theorem tempInteger_eq_div (k : Nat) (r : Int) : tempInteger k r = r.toNat / 2 ^ k :=
  Nat.shiftRight_eq_div_pow r.toNat k

/-- The fraction is below one degree, so the conversion stays below one whole `scale`. -/
theorem tempDecimals_lt (k : Nat) (r : Int) {scale : Nat} (hscale : 0 < scale) : tempDecimals k r scale < scale := by
  have hfraction : tempFraction k r < 2 ^ k := Nat.mod_lt _ (Nat.two_pow_pos k)
  rw [tempDecimals, Nat.div_lt_iff_lt_mul (Nat.two_pow_pos k), Nat.mul_comm scale]
  exact Nat.mul_lt_mul_of_pos_right hfraction hscale

theorem tempDigitsLow_fraction (k : Nat) (r : Int) :
    10 * (tempDigitsLow k r).p2.toNat + (tempDigitsLow k r).p3.toNat = tempDecimals k r 100 := by
  have hlt : tempDecimals k r 100 < 100 := tempDecimals_lt k r (by decide)
  simp only [tempDigitsLow, BitVec.toNat_ofNat]
  omega

theorem tempDigitsHigh_fraction (k : Nat) (m : TopDigitMode) (r : Int) :
    (tempDigitsHigh k m r).p3.toNat = tempDecimals k r 10 := by
  have hlt : tempDecimals k r 10 < 10 := tempDecimals_lt k r (by decide)
  simp only [tempDigitsHigh, BitVec.toNat_ofNat]
  omega

/-- Settles O37: the reading's integer part chooses the layout, and the conversion stays below its scale, so the
layout's fraction digits hold all of it. -/
theorem fractionConversionTruncates : Obligations.FractionConversionTruncates := by
  refine ⟨by decide, by decide, fun m r => ⟨fun h0 hlt => ?_, fun hle => ?_⟩⟩
  · have hlow : tempInteger 4 r < 100 := by rw [tempInteger_eq_div]; omega
    exact ⟨_, _, formatTemperature_low m h0 hlow, tempDigitsLow_fraction 4 r⟩
  · have hhigh : 100 ≤ tempInteger 4 r := by rw [tempInteger_eq_div]; omega
    exact ⟨_, _, formatTemperature_high m (by omega) hhigh, tempDigitsHigh_fraction 4 m r⟩

end Sys2Proof.Machine

/-! A conversion that does not complete (spec/60_exceptions.md R252). -/

namespace Sys2Proof.Machine

/-- With the flag clear AdcPoll leaves the controller at the poll. -/
theorem cpPlan_poll_clear {s : State} {n : Nat} {c : Caller} (hcp : s.cp = .sampler .poll n c)
    (hd : s.adcDone = false) : cpPlan s = .act (record (.adcPoll false) s) := by
  simp only [cpPlan, hcp, samplerPlan, adcPoll, record, hd, Bool.false_eq_true, if_false]

theorem step_poll_clear {s : State} {n : Nat} {c : Caller} (ts : List Turn) (h : atStatement s = true)
    (hcp : s.cp = .sampler .poll n c) (hd : s.adcDone = false) :
    step { s with turns := .run :: ts } = .next (record (.adcPoll false) { s with turns := ts }) :=
  step_act h rfl (cpPlan_poll_clear hcp hd)

/-- Settles O31: a poll with the flag clear changes nothing but the trace, so the polls that are left go the same
way. -/
theorem stuckConversionPollsForEver : Obligations.StuckConversionPollsForEver := by
  intro k
  induction k with
  | zero => intro s n c _ _ _; rfl
  | succ k ih =>
    intro s n c h hcp hd
    calc runSteps (k + 1) (withRuns (k + 1) [] s)
        = runSteps k (withRuns k [] (record (.adcPoll false) s)) := runSteps_succ k (step_poll_clear _ h hcp hd)
      _ = .next { s with
            turns := []
            events := List.replicate k (.adcPoll false) ++ .adcPoll false :: s.events } :=
          ih (record (.adcPoll false) s) n c h hcp hd
      _ = .next { s with turns := [], events := List.replicate (k + 1) (.adcPoll false) ++ s.events } := by
          rw [List.replicate_succ', List.append_assoc, List.singleton_append]

end Sys2Proof.Machine

/-! How the control point, the phase and the fault record move together (spec/10_state.md R20, R21, R33). -/

namespace Sys2Proof.Machine

/-! A loaded program's call. -/

/-- What making a call does: nothing yet, a delay, or the first statement of a called operation that will return
to the control point. -/
inductive CallMove (s : State) : State → Prop where
  | sends : CallMove s s
  | waits (t : Micros) : CallMove s (delay t s)
  | samples (n : Nat) (hb : cpBoundary s.cp = true) (hn : 1 ≤ n ∧ n ≤ s.cfg.maxSamples) :
      CallMove s { adcSelect s with resume := s.cp, cp := .sampler .clearAcc n .script }
  | senses (hb : cpBoundary s.cp = true) : CallMove s { sensorStart s with resume := s.cp, cp := .temp .wait true }

theorem callPlan_move {c : Call} {s u : State} (hb : (∃ n, c = .vcc n) ∨ c = .temp → cpBoundary s.cp = true)
    (h : planState (callPlan c s) = some u) : CallMove s u := by
  cases c with
  | wr a v => cases h; exact .sends
  | delay t => cases h; exact .waits t
  | temp => cases h; exact .senses (hb (.inr rfl))
  | dig p v dp =>
    simp only [callPlan] at h
    split at h <;> cases h
    exact .sends
  | vcc n =>
    simp only [callPlan, samplerPlan] at h
    split at h <;> cases h
    exact .samples n (hb (.inl ⟨n, rfl⟩)) ‹_›

/-- A plan is a call's, made outside a called operation and with the call taken from the loaded program, or the
control point's. -/
theorem plan_move {s u : State} (h : planState (plan s) = some u) :
    (cpCalled s.cp = false ∧ ∃ cs, CallMove { s with script := cs } u) ∨
      (plan s = cpPlan s ∧ planState (cpPlan s) = some u) := by
  obtain ⟨c, cs, hready, -, hcall⟩ | ⟨hready, hcp⟩ := plan_cases h
  · obtain ⟨hcalled, hb⟩ := readyCall_cases hready
    exact .inl ⟨hcalled, cs, callPlan_move hb hcall⟩
  · exact .inr ⟨by simp only [plan, hready], hcp⟩

/-! The control point, the phase and the fault record. -/

@[simp] theorem cpCalled_sampler (st : SamplerStep) (n : Nat) (c : Caller) :
    cpCalled (.sampler st n c) = decide (c = .script) := by cases c <;> rfl
@[simp] theorem cpCalled_formatVoltage (c : Caller) : cpCalled (.formatVoltage c) = decide (c = .script) := by
  cases c <;> rfl
@[simp] theorem cpCalled_showVoltage (p : Pos) (c : Caller) :
    cpCalled (.showVoltage p c) = decide (c = .script) := by cases c <;> rfl
@[simp] theorem cpCalled_temp (st : TempStep) (called : Bool) : cpCalled (.temp st called) = called := by
  cases called <;> rfl

/-- How a statement of the program moves them. -/
inductive ControlMove (s u : State) : Prop where
  /-- To a control point of the same phase, no call begun or ended. -/
  | within (hr : u.resume = s.resume) (hp : u.phase = s.phase) (hf : u.fault = s.fault)
      (hc : cpCalled u.cp = cpCalled s.cp) (hcp : cpPhase u.cp = cpPhase s.cp)
  /-- The end of Init or of the startup. -/
  | advances (hr : u.resume = s.resume) (hp : u.phase = cpPhase u.cp) (hf : u.fault = s.fault)
      (hs : cpCalled s.cp = false) (hu : cpCalled u.cp = false) (hrun : u.phase ≠ .faulted)
  /-- The end of a called operation. -/
  | returns (hr : u.resume = s.resume) (hp : u.phase = s.phase) (hf : u.fault = s.fault)
      (hc : cpCalled s.cp = true) (hcp : u.cp = s.resume)
  /-- ScaleVcc of an average of 0. -/
  | faults (hr : u.resume = s.resume) (hp : u.phase = .faulted) (hf : u.fault.isSome = true) (hcp : u.cp = s.cp)

theorem samplerPlan_controlMove {st : SamplerStep} {n : Nat} {c : Caller} {s u : State}
    (hcp : s.cp = .sampler st n c) (h : planState (samplerPlan st n c s) = some u) : ControlMove s u := by
  cases st with
  | select =>
    simp only [samplerPlan] at h
    split at h <;> cases h
    exact .within rfl rfl rfl (by simp [hcp]) (by rw [hcp]; rfl)
  | settle =>
    cases h
    split <;> exact .within rfl rfl rfl (by simp [hcp]) (by rw [hcp]; rfl)
  | scale =>
    cases h
    unfold scaleVcc
    split
    · exact .faults rfl rfl rfl rfl
    · exact .within rfl rfl rfl (by simp [hcp]) (by rw [hcp]; rfl)
  | _ => cases h; exact .within rfl rfl rfl (by simp [hcp]) (by rw [hcp]; rfl)

/-- A statement of the temperature iteration, by its name; `show` itself is a word of Lean. -/
theorem tempStep_cases {motive : TempStep → Prop} (st : TempStep) (start : motive .start) (wait : motive .wait)
    (read : motive .read) (format : motive .format) (shows : ∀ p, motive (.show p)) (again : motive .again) :
    motive st :=
  TempStep.rec start wait read format shows again st

theorem tempPlan_controlMove {st : TempStep} {called : Bool} {s u : State}
    (hcp : s.cp = .temp st called) (h : planState (tempPlan st called s) = some u) : ControlMove s u := by
  cases st using tempStep_cases with
  | again =>
    cases h
    cases called with
    | true => exact .returns rfl rfl rfl (by rw [hcp]; rfl) rfl
    | false => exact .within rfl rfl rfl (by rw [hcp]; rfl) (by rw [hcp]; rfl)
  | format =>
    simp only [tempPlan] at h
    split at h <;> cases h <;> exact .within rfl rfl rfl (by simp [hcp]) (by rw [hcp]; rfl)
  | shows p => cases p <;> cases h <;> exact .within rfl rfl rfl (by simp [hcp]) (by rw [hcp]; rfl)
  | _ => cases h; exact .within rfl rfl rfl (by simp [hcp]) (by rw [hcp]; rfl)

theorem showVoltage_controlMove {p : Pos} {c : Caller} {s u : State} (hcp : s.cp = .showVoltage p c)
    (h : planState (cpPlan s) = some u) : ControlMove s u := by
  simp only [cpPlan, hcp] at h
  cases p with
  | p3 =>
    cases h
    cases c with
    | script => exact .returns rfl rfl rfl (by rw [hcp]; rfl) rfl
    | _ => exact .within rfl rfl rfl (by rw [hcp]; rfl) (by rw [hcp]; rfl)
  | _ => cases h; exact .within rfl rfl rfl (by simp [hcp]) (by rw [hcp]; rfl)

theorem cpPlan_controlMove {s u : State} (h : planState (cpPlan s) = some u) : ControlMove s u := by
  cases hcp : s.cp with
  | showVoltage p c => exact showVoltage_controlMove hcp h
  | sampler st n c =>
    simp only [cpPlan, hcp] at h
    exact samplerPlan_controlMove hcp h
  | temp st called =>
    simp only [cpPlan, hcp] at h
    exact tempPlan_controlMove hcp h
  | i12 =>
    simp only [cpPlan, hcp, startup] at h
    split at h <;> cases h <;> exact .advances rfl rfl rfl (by rw [hcp]; rfl) rfl nofun
  | m1 first =>
    simp only [cpPlan, hcp, turnRound] at h
    split at h <;> cases h <;> exact .within rfl rfl rfl (by rw [hcp]; rfl) (by rw [hcp]; rfl)
  | c1 =>
    simp only [cpPlan, hcp] at h
    cases h
    exact .advances rfl rfl rfl (by rw [hcp]; rfl) rfl nofun
  | formatVoltage c =>
    simp only [cpPlan, hcp] at h
    cases h
    exact .within rfl rfl rfl (by simp [hcp]) (by rw [hcp]; rfl)
  | _ =>
    simp only [cpPlan, hcp] at h
    cases h
    exact .within rfl rfl rfl (by rw [hcp]; rfl) (by rw [hcp]; rfl)

theorem controlOk_iff (s : State) : controlOk s = true ↔
    (s.phase = .faulted ∨ s.phase = cpPhase (homeCp s)) ∧ (s.fault.isSome = true ↔ s.phase = .faulted) ∧
      (cpCalled s.cp = true → cpBoundary s.resume = true) := by
  have hiff : ((s.fault.isSome == (s.phase == .faulted)) = true) ↔ (s.fault.isSome = true ↔ s.phase = .faulted) := by
    rw [beq_iff_eq, Bool.eq_iff_iff, beq_iff_eq]
  simp only [controlOk, Bool.and_eq_true, hiff, Bool.or_eq_true, beq_iff_eq, Bool.not_eq_true', and_assoc]
  cases cpCalled s.cp <;> simp

theorem homeCp_of_called {s : State} (h : cpCalled s.cp = true) : homeCp s = s.resume := by simp [homeCp, h]

theorem homeCp_of_not_called {s : State} (h : cpCalled s.cp = false) : homeCp s = s.cp := by simp [homeCp, h]

/-- The control point returned to is the fixed program's, whether the call is still in progress or has ended. -/
theorem ControlMove.homeCp_eq {s u : State} (hm : ControlMove s u) (hok : controlOk s = true)
    (hc : cpCalled s.cp = true) : homeCp u = homeCp s := by
  obtain ⟨-, -, hresume⟩ := (controlOk_iff s).1 hok
  rw [homeCp_of_called hc]
  cases hm with
  | within hr hp hf hc' hcp => rw [homeCp_of_called (hc'.trans hc), hr]
  | advances hr hp hf hs => exact absurd hc (by simp [hs])
  | returns hr hp hf _ hcp => rw [homeCp_of_not_called (by rw [hcp]; exact boundary_not_called (hresume hc)), hcp]
  | faults hr hp hf hcp => rw [homeCp_of_called (by rw [hcp, hc]), hr]

/-- The fixed program does not turn into a called operation. -/
theorem ControlMove.not_called {s u : State} (hm : ControlMove s u) (hc : cpCalled s.cp = false) :
    cpCalled u.cp = false := by
  cases hm with
  | within hr hp hf hc' hcp => exact hc'.trans hc
  | advances hr hp hf hs hu => exact hu
  | returns hr hp hf hs => exact absurd hs (by simp [hc])
  | faults hr hp hf hcp => rw [hcp, hc]

theorem ControlMove.controlOk {s u : State} (hm : ControlMove s u) (hrun : s.phase ≠ .faulted)
    (hok : controlOk s = true) : controlOk u = true := by
  obtain ⟨hphase, hfault, hresume⟩ := (controlOk_iff s).1 hok
  have hphase : s.phase = cpPhase (homeCp s) := hphase.resolve_left hrun
  refine (controlOk_iff u).2 ?_
  cases hm with
  | within hr hp hf hc hcp =>
    refine ⟨.inr ?_, by rw [hf, hp, hfault], by rw [hc, hr]; exact hresume⟩
    rw [hp, hphase, homeCp, homeCp, hc, hr]
    split
    · rfl
    · exact hcp.symm
  | advances hr hp hf hs hu hrun' =>
    refine ⟨.inr ?_, by simp [hf, hfault, hrun, hrun'], by simp [hu]⟩
    rw [homeCp_of_not_called hu, hp]
  | returns hr hp hf hc hcp =>
    have hu : cpCalled u.cp = false := by rw [hcp]; exact boundary_not_called (hresume hc)
    refine ⟨.inr ?_, by rw [hf, hp, hfault], by simp [hu]⟩
    rw [homeCp_of_not_called hu, hcp, hp, hphase, homeCp_of_called hc]
  | faults hr hp hf hcp => exact ⟨.inl hp, by simp [hf, hp], by rw [hcp, hr]; exact hresume⟩

theorem CallMove.controlOk {s u : State} (hm : CallMove s u) (hc : cpCalled s.cp = false)
    (hok : controlOk s = true) : controlOk u = true := by
  obtain ⟨hphase, hfault, -⟩ := (controlOk_iff s).1 hok
  rw [homeCp_of_not_called hc] at hphase
  cases hm with
  | sends | waits => exact hok
  | samples n hb | senses hb => exact (controlOk_iff _).2 ⟨hphase, hfault, fun _ => hb⟩

theorem plan_controlOk {s u : State} (hrun : s.phase ≠ .faulted) (hok : controlOk s = true)
    (h : planState (plan s) = some u) : controlOk u = true := by
  obtain ⟨hc, cs, hm⟩ | ⟨-, hcp⟩ := plan_move h
  · exact hm.controlOk hc hok
  · exact (cpPlan_controlMove hcp).controlOk hrun hok

/-- The ADC's completion writes its result, the flag and `adc_busy` only. -/
theorem adcComplete_keeps {α : Type} (f : State → α)
    (hf : ∀ s r, f { s with adcResult := r, adcDone := true, adcBusy := false } = f s) (c : Nat) (s : State) :
    f (adcComplete c s) = f s := by
  unfold adcComplete
  split
  · exact hf _ _
  · rfl

/-- Settles O52: a call is made outside a called operation only, a statement moves the three together, and no
primitive and no other agent touches them. -/
theorem stepKeepsPhaseAndControlPointTogether : Obligations.StepKeepsPhaseAndControlPointTogether := by
  intro s t hok hstep
  exact step_keeps controlOk (by simp [controlOk, homeCp]) (fun _ _ => rfl) (fun _ _ _ => rfl)
    (fun _ _ hrun hok h => plan_controlOk hrun hok h)
    (fun s c h => (adcComplete_keeps controlOk (fun _ _ => rfl) c s).trans h) (fun _ _ => rfl) hok hstep

end Sys2Proof.Machine

/-! The command map (spec/30_encoding.md R83 to R87). -/

namespace Sys2Proof

/-- A word decodes to a command of its own address byte and value byte. -/
theorem encode_of_decode {c : Config} {w : FrameWord} {i : Instr} (h : decode c w = some i) :
    encode c i = w ∧ i.WellFormed = true := by
  have hdigit : frameWord (wordAddr w) (packDigit (byteDigit (wordValue w)) (bytePoint (wordValue w))) = w := by
    rw [packDigit_eta, frameWord_eta]
  have hcontrol : frameWord (wordAddr w) (wordValue w) = w := frameWord_eta w
  have hlt : decide ((byteDigit (wordValue w)).toNat < 128) = true := decide_eq_true (byteDigit_lt _)
  simp only [decode] at h
  split_ifs at h with h1 h2 h3 h4 h5 h6 h7 h8 h9 <;> cases h
  · rw [h1] at hdigit; exact ⟨hdigit, hlt⟩
  · rw [h2] at hdigit; exact ⟨hdigit, hlt⟩
  · rw [h3] at hdigit; exact ⟨hdigit, hlt⟩
  · rw [h4] at hdigit; exact ⟨hdigit, hlt⟩
  · rw [h5] at hcontrol; exact ⟨hcontrol, rfl⟩
  · rw [h6] at hcontrol; exact ⟨hcontrol, rfl⟩
  · rw [h7] at hcontrol; exact ⟨hcontrol, rfl⟩
  · rw [h8] at hcontrol; exact ⟨hcontrol, rfl⟩
  · rw [h9] at hcontrol; exact ⟨hcontrol, rfl⟩

/-- The decoder's nine tests are the nine addresses. -/
theorem decode_eq_none_iff (c : Config) (w : FrameWord) :
    decode c w = none ↔ wordAddr w ∉ [0x01, 0x02, 0x03, (0x04 : Byte)] ++ c.controlAddresses := by
  simp only [decode, Config.controlAddresses, List.cons_append, List.nil_append, List.mem_cons, List.not_mem_nil,
    or_false, not_or]
  split_ifs <;> simp_all

/-- Settles O3: each of the nine rows encodes to its address and the value byte it was decoded from. -/
theorem encodeInvertsDecode : Obligations.EncodeInvertsDecode := fun _ _ _ h => encode_of_decode h

/-- Settles O4: the decoder refuses a word where all its nine tests of the address fail. -/
theorem decodeRefusesExactlyTheUnusedAddresses : Obligations.DecodeRefusesExactlyTheUnusedAddresses :=
  decode_eq_none_iff

/-! Decoding a word by its address. -/

section
variable (c : Config) (v : Byte)

theorem decode_frameWord_p0 : decode c (frameWord 0x01 v) = some (.wrDigP0 (byteDigit v) (bytePoint v)) := by
  simp [decode]
theorem decode_frameWord_p3 : decode c (frameWord 0x02 v) = some (.wrDigP3 (byteDigit v) (bytePoint v)) := by
  simp [decode]
theorem decode_frameWord_p1 : decode c (frameWord 0x03 v) = some (.wrDigP1 (byteDigit v) (bytePoint v)) := by
  simp [decode]
theorem decode_frameWord_p2 : decode c (frameWord 0x04 v) = some (.wrDigP2 (byteDigit v) (bytePoint v)) := by
  simp [decode]

end

/-- A control address is no digit address (20_memory.md R61). -/
theorem control_ne_digit {c : Config} (h : c.addressesOk = true) {a : Byte} (ha : a ∈ c.controlAddresses) :
    a ≠ 0x01 ∧ a ≠ 0x02 ∧ a ≠ 0x03 ∧ a ≠ 0x04 := by
  simp only [Config.addressesOk, Bool.and_eq_true, List.all_eq_true] at h
  simpa using h.2 a ha

/-- Of the other addresses, the decoder tests the control addresses only. -/
theorem decode_frameWord_control {c : Config} (h : c.addressesOk = true) {a : Byte} (ha : a ∈ c.controlAddresses)
    (v : Byte) :
    decode c (frameWord a v) =
      if a = c.aDecode then some (.wrDecode v)
      else if a = c.aIntensity then some (.wrIntensity v)
      else if a = c.aScanlimit then some (.wrScanlimit v)
      else if a = c.aShutdown then some (.wrShutdown v)
      else if a = c.aTest then some (.wrTest v)
      else none := by
  obtain ⟨h1, h2, h3, h4⟩ := control_ne_digit h ha
  simp only [decode, wordAddr_frameWord, wordValue_frameWord, h1, h2, h3, h4, if_false]

/-- No two control addresses agree (20_memory.md R61), as the decoder's tests need it. -/
theorem controlAddresses_ne {c : Config} (h : c.addressesOk = true) :
    c.aIntensity ≠ c.aDecode ∧ (c.aScanlimit ≠ c.aDecode ∧ c.aScanlimit ≠ c.aIntensity) ∧
      (c.aShutdown ≠ c.aDecode ∧ c.aShutdown ≠ c.aIntensity ∧ c.aShutdown ≠ c.aScanlimit) ∧
      (c.aTest ≠ c.aDecode ∧ c.aTest ≠ c.aIntensity ∧ c.aTest ≠ c.aScanlimit ∧ c.aTest ≠ c.aShutdown) := by
  simp only [Config.addressesOk, Bool.and_eq_true, decide_eq_true_eq, Config.controlAddresses, List.nodup_cons,
    List.mem_cons, List.not_mem_nil, or_false, not_or] at h
  obtain ⟨⟨⟨hst, hsd, hsi, hss⟩, ⟨htd, hti, hts⟩, ⟨hdi, hds⟩, his, -⟩, -⟩ := h
  exact ⟨Ne.symm hdi, ⟨Ne.symm hds, Ne.symm his⟩, ⟨hsd, hsi, hss⟩, htd, hti, hts, Ne.symm hst⟩

/-- Settles O2: a digit word is decoded by its address and the digit byte gives back both operands; a control word's
address passes the decoder's tests for every other address. -/
theorem decodeInvertsEncode : Obligations.DecodeInvertsEncode := by
  intro c i hok hwf
  obtain ⟨hi, hs, hsh, ht⟩ := controlAddresses_ne hok
  cases i with
  | wrDigP0 v dp =>
    have hv : v.toNat < 128 := of_decide_eq_true hwf
    rw [encode, decode_frameWord_p0, byteDigit_packDigit v dp hv, bytePoint_packDigit v dp hv]
  | wrDigP3 v dp =>
    have hv : v.toNat < 128 := of_decide_eq_true hwf
    rw [encode, decode_frameWord_p3, byteDigit_packDigit v dp hv, bytePoint_packDigit v dp hv]
  | wrDigP1 v dp =>
    have hv : v.toNat < 128 := of_decide_eq_true hwf
    rw [encode, decode_frameWord_p1, byteDigit_packDigit v dp hv, bytePoint_packDigit v dp hv]
  | wrDigP2 v dp =>
    have hv : v.toNat < 128 := of_decide_eq_true hwf
    rw [encode, decode_frameWord_p2, byteDigit_packDigit v dp hv, bytePoint_packDigit v dp hv]
  | wrDecode v => rw [encode, decode_frameWord_control hok (by simp [Config.controlAddresses]), if_pos rfl]
  | wrIntensity v =>
    rw [encode, decode_frameWord_control hok (by simp [Config.controlAddresses]), if_neg hi, if_pos rfl]
  | wrScanlimit v =>
    rw [encode, decode_frameWord_control hok (by simp [Config.controlAddresses]), if_neg hs.1, if_neg hs.2, if_pos rfl]
  | wrShutdown v =>
    rw [encode, decode_frameWord_control hok (by simp [Config.controlAddresses])]
    simp only [hsh, if_false, if_true]
  | wrTest v =>
    rw [encode, decode_frameWord_control hok (by simp [Config.controlAddresses])]
    simp only [ht, if_false, if_true]

/-- Settles O1: ten fixed words, none of which depends on an open parameter. -/
theorem commandMapWordsDecode : Obligations.CommandMapWordsDecode := by
  unfold Obligations.CommandMapWordsDecode
  decide

/-! The digit byte (spec/41_display_register.md R132). -/

/-- Only bit 7 of the digit byte is the point's. -/
theorem packDigit_getLsbD (v : Byte) (dp : Bool) (i : Nat) :
    (packDigit v dp).getLsbD i = (v.getLsbD i || (dp && decide (i = 7))) := by
  have hpoint : (0x80 : Byte).getLsbD i = decide (i = 7) := by
    by_cases hi : i < 8
    · interval_cases i <;> rfl
    · rw [BitVec.getLsbD_of_ge _ _ (by omega), decide_eq_false (by omega)]
  cases dp with
  | false => simp [packDigit]
  | true => rw [packDigit, BitVec.getLsbD_or, if_pos rfl, hpoint, Bool.true_and]

/-- The point leaves the low bits of the digit byte alone. -/
theorem packDigit_toNat_mod (v : Byte) (dp : Bool) : (packDigit v dp).toNat % 128 = v.toNat % 128 := by
  apply Nat.eq_of_testBit_eq
  intro i
  have h := packDigit_getLsbD v dp i
  simp only [BitVec.getLsbD] at h
  rw [show 128 = 2 ^ 7 from rfl, Nat.testBit_mod_two_pow, Nat.testBit_mod_two_pow, h]
  by_cases hi : i < 7
  · simp [hi, show i ≠ 7 by omega]
  · simp [hi]

/-- Settles O6: below bit 7 the digit byte is the digit value, in bit 7 it is that or the point. -/
theorem packDigitSetsBitSevenForThePoint : Obligations.PackDigitSetsBitSevenForThePoint := by
  intro v dp
  have hmod := packDigit_toNat_mod v dp
  refine ⟨fun i hi => ?_, ?_, fun hv => ⟨?_, by omega⟩, fun hv => ?_⟩
  · rw [packDigit_getLsbD, decide_eq_false (by omega), Bool.and_false, Bool.or_false]
  · rw [packDigit_getLsbD, decide_eq_true rfl, Bool.and_true]
  · apply BitVec.eq_of_toNat_eq
    rw [BitVec.extractLsb'_toNat, Nat.shiftRight_eq_div_pow]
    simp only [BitVec.ofNat_eq_ofNat, BitVec.toNat_ofNat]
    omega
  · have hbit : v.getLsbD 7 = true := by
      rw [BitVec.getLsbD, Nat.testBit_eq_decide_div_mod_eq]
      have := v.isLt
      exact decide_eq_true (by omega)
    rw [packDigit_getLsbD, hbit, Bool.true_or]

end Sys2Proof

namespace Sys2Proof.Machine

theorem decode_isSome {c : Config} {a v : Byte} (h : a ∈ [0x01, 0x02, 0x03, (0x04 : Byte)] ++ c.controlAddresses) :
    ∃ i, decode c (frameWord a v) = some i := by
  refine Option.ne_none_iff_exists'.1 fun hnone => ?_
  rw [decode_eq_none_iff, wordAddr_frameWord] at hnone
  exact hnone h

theorem decode_digitWord (c : Config) (p : Pos) (v : Byte) (dp : Bool) :
    ∃ i, decode c (digitWord p v dp) = some i :=
  decode_isSome (List.mem_append_left _ (by cases p <;> decide))

theorem decode_controlWord {c : Config} {a : Byte} (h : a ∈ c.controlAddresses) (v : Byte) :
    ∃ i, decode c (frameWord a v) = some i :=
  decode_isSome (List.mem_append_right _ h)

/-- Settles O26: the frames of the fixed program are Init's to the five control registers and those of the digits
shown. -/
theorem fixedProgramSendsOnlyTheNineCommands : Obligations.FixedProgramSendsOnlyTheNineCommands := by
  intro s t w hscript h
  have hready : readyCall s = none := by simp only [readyCall, hscript]
  have h : cpPlan s = .frame w t := by simpa only [plan, hready] using h
  cases hcp : s.cp with
  | i6 | i7 | i8 | i9 | i10 =>
    simp only [cpPlan, hcp] at h
    cases h
    exact decode_controlWord (by simp [Config.controlAddresses]) _
  | showVoltage p c =>
    simp only [cpPlan, hcp] at h
    split at h <;> cases h <;> exact decode_digitWord _ p _ _
  | temp st called =>
    simp only [cpPlan, hcp] at h
    cases st using tempStep_cases with
    | shows p =>
      simp only [tempPlan] at h
      split at h <;> cases h <;> exact decode_digitWord _ p _ _
    | format =>
      simp only [tempPlan] at h
      split at h <;> cases h
    | _ => cases h
  | sampler st n c =>
    simp only [cpPlan, hcp] at h
    cases st with
    | select =>
      simp only [samplerPlan] at h
      split at h <;> cases h
    | _ => cases h
  | _ =>
    simp only [cpPlan, hcp] at h
    cases h

end Sys2Proof.Machine

/-! What the controller's turn does to the link: the wires and the trace (spec/40_serial_link.md R110 to R116,
spec/45_display_receiver.md R240). -/

namespace Sys2Proof.Machine

/-! Plans and the wires. -/

@[simp] theorem afterVoltage_wire (c : Caller) (s : State) : (afterVoltage c s).wire = s.wire := by
  rw [afterVoltage_moves]; rfl

@[simp] theorem turnRound_wire (first : Bool) (s : State) : (turnRound first s).wire = s.wire := by
  rw [turnRound_moves]; rfl

@[simp] theorem startup_wire (s : State) : (startup s).wire = s.wire := by
  unfold startup
  split <;> rfl

@[simp] theorem scaleVcc_wire (s : State) : (scaleVcc s).wire = s.wire := by
  unfold scaleVcc
  split <;> rfl

theorem CallMove.wire {s u : State} (h : CallMove s u) : u.wire = s.wire := by
  cases h <;> rfl

theorem samplerPlan_wire {st : SamplerStep} {n : Nat} {c : Caller} {s u : State}
    (h : planState (samplerPlan st n c s) = some u) : u.wire = s.wire := by
  cases st with
  | select =>
    simp only [samplerPlan] at h
    split at h <;> cases h
    rfl
  | settle =>
    cases h
    split <;> rfl
  | scale =>
    cases h
    split
    · exact scaleVcc_wire s
    · exact scaleVcc_wire s
  | _ => cases h; rfl

theorem tempPlan_wire {st : TempStep} {called : Bool} {s u : State}
    (h : planState (tempPlan st called s) = some u) : u.wire = s.wire := by
  cases st using tempStep_cases with
  | format =>
    simp only [tempPlan] at h
    split at h <;> cases h <;> rfl
  | shows p => cases p <;> cases h <;> rfl
  | _ => cases h; rfl

/-- Before its frame or primitives only ConfigurePins touches the wires. -/
theorem cpPlan_wire {s u : State} (h : planState (cpPlan s) = some u) :
    u.wire = s.wire ∨ s.cp = .i1 ∧ u = { configurePins s with cp := .i2 } := by
  cases hcp : s.cp with
  | i1 =>
    simp only [cpPlan, hcp] at h
    cases h
    exact .inr ⟨rfl, rfl⟩
  | sampler st n c =>
    simp only [cpPlan, hcp] at h
    exact .inl (samplerPlan_wire h)
  | temp st called =>
    simp only [cpPlan, hcp] at h
    exact .inl (tempPlan_wire h)
  | showVoltage p c =>
    simp only [cpPlan, hcp] at h
    cases p with
    | p3 => cases h; exact .inl (afterVoltage_wire c s)
    | _ => cases h; exact .inl rfl
  | i12 =>
    simp only [cpPlan, hcp] at h
    cases h
    exact .inl (startup_wire _)
  | m1 first =>
    simp only [cpPlan, hcp] at h
    cases h
    exact .inl (turnRound_wire first s)
  | _ =>
    simp only [cpPlan, hcp] at h
    cases h
    exact .inl rfl

theorem plan_wire {s u : State} (h : planState (plan s) = some u) :
    u.wire = s.wire ∨ s.cp = .i1 ∧ u = { configurePins s with cp := .i2 } := by
  obtain ⟨-, cs, hm⟩ | ⟨-, hcp⟩ := plan_move h
  · exact .inl hm.wire
  · exact cpPlan_wire hcp

/-! The wires as a replay of the trace. -/

/-- The second state's trace goes on from the first's, and the events added lead from wires to wires. -/
def Replays (s t : State) : Prop := ∃ es, t.trace = s.trace ++ es ∧ t.wire = replay s.wire es

theorem Replays.refl (s : State) : Replays s s := ⟨[], (List.append_nil _).symm, rfl⟩

theorem Replays.trans {s t u : State} (h : Replays s t) (g : Replays t u) : Replays s u := by
  obtain ⟨es, htrace, hwire⟩ := h
  obtain ⟨fs, gtrace, gwire⟩ := g
  refine ⟨es ++ fs, by rw [gtrace, htrace, List.append_assoc], ?_⟩
  rw [gwire, hwire, replay, replay, replay, List.foldl_append]

/-- An event that is no line event leaves the wires alone (R240). -/
theorem wireEvent_of_not_line {e : Event} (h : isLine e = false) (w : Wire) : wireEvent w e = w := by
  cases e with
  | line => cases h
  | _ => rfl

theorem setLine_replays (sig : Sig) (lvl : Bool) (s : State) : Replays s (setLine sig lvl s) :=
  ⟨[.line sig lvl], setLine_trace s sig lvl, by cases sig <;> rfl⟩

theorem applyPrim_replays (s : State) (p : Prim) : Replays s (applyPrim s p) := by
  cases p with
  | load w => exact .refl s
  | line sig lvl => exact setLine_replays sig lvl s
  | dataBit k => exact setLine_replays .din _ { s with bit := k }
  | linkDelay => exact ⟨[.delay s.cfg.tLink], linkDelay_trace s, rfl⟩

theorem runPrims_replays (ps : List Prim) : ∀ s, Replays s (runPrims ps s) := by
  induction ps with
  | nil => exact .refl
  | cons p ps ih => exact fun s => (applyPrim_replays s p).trans (ih _)

theorem perform_replays (whole : Bool) (ps : List Prim) (s : State) : Replays s (perform whole ps s) := by
  cases whole with
  | true => exact runPrims_replays ps { s with rest := [] }
  | false =>
    cases ps with
    | nil => exact .refl s
    | cons p ps => exact applyPrim_replays { s with rest := ps } p

theorem writeCommand_replays (a v : Byte) (s : State) : Replays s (writeCommand a v s) := by
  rw [← runPrims_framePrims]
  exact runPrims_replays _ s

/-- What a plan adds to the trace is no line event, so that the wires follow the trace or ConfigurePins was run. -/
theorem plan_replays {s u : State} (h : planState (plan s) = some u) :
    Replays s u ∨ u.trace = s.trace ++ [.pinsConfigured] := by
  obtain hwire | ⟨-, rfl⟩ := plan_wire h
  · obtain ⟨-, -, hevents | ⟨e, he, hevents⟩⟩ := plan_events h
    · exact .inl ⟨[], by rw [State.trace, hevents, State.trace, List.append_nil], hwire⟩
    · refine .inl ⟨[e], by rw [State.trace, hevents, State.trace, List.reverse_cons], ?_⟩
      rw [hwire]
      exact (wireEvent_of_not_line he _).symm
  · exact .inr (record_trace _ _)

/-- The wires follow the trace, or ConfigurePins is among the events added. -/
def ReplaysOrConfigures (s t : State) : Prop :=
  ∃ es, t.trace = s.trace ++ es ∧ (.pinsConfigured ∈ es ∨ t.wire = replay s.wire es)

theorem Replays.orConfigures {s t : State} (h : Replays s t) : ReplaysOrConfigures s t := by
  obtain ⟨es, htrace, hwire⟩ := h
  exact ⟨es, htrace, .inr hwire⟩

theorem plan_replays_trans {s u t : State} (h : planState (plan s) = some u) (g : Replays u t) :
    ReplaysOrConfigures s t := by
  obtain hu | hu := plan_replays h
  · exact (hu.trans g).orConfigures
  · obtain ⟨es, htrace, -⟩ := g
    exact ⟨.pinsConfigured :: es, by rw [htrace, hu, List.append_assoc, List.singleton_append],
      .inl (List.mem_cons_self ..)⟩

theorem controller_replays {whole : Bool} {s t : State} (h : controller whole s = .next t) :
    ReplaysOrConfigures s t := by
  obtain ⟨-, ⟨p, ps, -, rfl⟩ | ⟨-, ⟨w, u, hp, ⟨-, rfl⟩ | ⟨-, rfl⟩⟩ | ⟨ps, u, hp, rfl⟩ | hp⟩⟩ := controller_next h
  · exact (perform_replays whole (p :: ps) s).orConfigures
  · exact plan_replays_trans (u := u) (by rw [hp]; rfl) (writeCommand_replays _ _ u)
  · exact plan_replays_trans (u := u) (by rw [hp]; rfl) (perform_replays _ _ u)
  · exact plan_replays_trans (u := u) (by rw [hp]; rfl) (perform_replays _ _ u)
  · exact plan_replays_trans (u := t) (by rw [hp]; rfl) (.refl t)

/-- Settles O25: every primitive replays its own event, a plan adds no line event before its primitives, and the ADC
adds none at all. -/
theorem receiverIsAFunctionOfTheLineEvents : Obligations.ReceiverIsAFunctionOfTheLineEvents := by
  intro s t hstep hturn
  have htrace : (takeTurn s).2.trace = s.trace := takeTurn_keeps State.trace (fun _ _ _ => rfl) s
  have hwire : (takeTurn s).2.wire = s.wire := takeTurn_keeps State.wire (fun _ _ _ => rfl) s
  have hmove : ReplaysOrConfigures (takeTurn s).2 t := by
    obtain ⟨-, hc⟩ | ⟨-, hc⟩ | ⟨c, -, rfl⟩ | ⟨hreset, -⟩ := step_next hstep
    · exact controller_replays hc
    · exact controller_replays hc
    · have hadc := adcComplete_keeps (fun s => (s.trace, s.wire)) (fun _ _ => rfl) c (takeTurn s).2
      obtain ⟨hadcTrace, hadcWire⟩ := Prod.mk.inj hadc
      exact ⟨[], by rw [hadcTrace, List.append_nil], .inr hadcWire⟩
    · exact absurd hreset hturn
  rwa [ReplaysOrConfigures, htrace, hwire] at hmove

/-! The operation in progress, done. -/

/-- The state once the operation in progress is done. -/
def settled (s : State) : State := runPrims s.rest { s with rest := [] }

theorem settled_eq (s : State) : settled s = { runPrims s.rest s with rest := [] } := runPrims_rest_update s.rest [] s

/-- The primitives a plan is made of. -/
def planPrims : Plan → List Prim
  | .frame w _ => framePrims w
  | .prims ps _ => ps
  | .act _ => []
  | .refuse _ => []

theorem settled_of_rest_nil {s : State} (h : s.rest = []) : settled s = s := by
  rw [settled, h, runPrims_nil, rest_nil_update s h]

theorem perform_rest_update (whole : Bool) {ps : List Prim} (hps : ps ≠ []) (r : List Prim) (s : State) :
    perform whole ps { s with rest := r } = perform whole ps s := by
  cases whole with
  | true => rfl
  | false =>
    cases ps with
    | nil => exact absurd rfl hps
    | cons p ps => rfl

/-- Performing some primitives, whole or not, does not change where they lead. -/
theorem settled_perform (whole : Bool) {ps : List Prim} (hps : ps ≠ []) (s : State) :
    settled (perform whole ps s) = runPrims ps { s with rest := [] } := by
  rw [← perform_rest_update whole hps [] s]
  exact runPrims_perform whole ps { s with rest := [] } rfl

theorem writeCommand_eq_runPrims (w : FrameWord) (s : State) :
    writeCommand (wordAddr w) (wordValue w) s = runPrims (framePrims w) s := by
  rw [← runPrims_framePrims, frameWord_eta]

@[simp] theorem writeCommand_rest (a v : Byte) (s : State) : (writeCommand a v s).rest = s.rest :=
  writeCommand_keeps State.rest applyPrim_rest a v s

/-- A turn of the controller goes on with the operation in progress, or begins the one its plan says. -/
theorem controller_settled {whole : Bool} {s t : State} (h : controller whole s = .next t) :
    s.phase ≠ .faulted ∧ (settled t = settled s ∨
      ∃ u, planState (plan s) = some u ∧ s.rest = [] ∧ settled t = runPrims (planPrims (plan s)) u) := by
  obtain ⟨hrun, ⟨p, ps, hrest, rfl⟩ | ⟨hnil, hplan⟩⟩ := controller_next h
  · exact ⟨hrun, .inl (by rw [settled_perform whole (List.cons_ne_nil p ps), settled, hrest])⟩
  · refine ⟨hrun, .inr ?_⟩
    have hrest : ∀ u, planState (plan s) = some u → u.rest = [] := fun u h => (plan_events h).2.1.trans hnil
    obtain ⟨w, u, hp, ⟨-, rfl⟩ | ⟨-, rfl⟩⟩ | ⟨ps, u, hp, rfl⟩ | hp := hplan
    all_goals rw [hp] at hrest ⊢
    · refine ⟨u, rfl, hnil, ?_⟩
      rw [settled_of_rest_nil (by simpa using hrest u rfl), writeCommand_eq_runPrims]
      rfl
    · exact ⟨u, rfl, hnil, runPrims_perform false (framePrims w) u (hrest u rfl)⟩
    · exact ⟨u, rfl, hnil, runPrims_perform whole ps u (hrest u rfl)⟩
    · exact ⟨t, rfl, hnil, settled_of_rest_nil (hrest t rfl)⟩

end Sys2Proof.Machine

/-! The lines between operations (spec/40_serial_link.md R111, spec/70_reset_and_hazards.md R282). -/

namespace Sys2Proof.Machine

/-- What Init has established of the lines by a control point of the fixed program. -/
def linesMeet (c : Cp) (t : State) : Bool :=
  match c with
  | .i1 => true
  | .i2 => linesDriven t
  | .i3 => linesDriven t && t.cs == .driven true
  | .i4 => linesDriven t && t.cs == .driven true && t.clk == .driven false
  | _ => linesIdle t

/-- Only the wires matter. -/
theorem linesMeet_congr {s t : State} (h : t.wire = s.wire) (c : Cp) : linesMeet c t = linesMeet c s := by
  have hcs : t.cs = s.cs := congrArg Wire.cs h
  have hclk : t.clk = s.clk := congrArg Wire.clk h
  have hdin : t.din = s.din := congrArg Wire.din h
  unfold linesMeet linesDriven linesIdle
  rw [hcs, hclk, hdin]

theorem linesMeet_of_idle {t : State} (h : linesIdle t = true) (c : Cp) : linesMeet c t = true := by
  obtain ⟨hcs, hclk, d, hdin⟩ := linesIdle_cases h
  have hdriven : linesDriven t = true := by rw [linesDriven, hcs, hclk, hdin]; rfl
  cases c with
  | i1 => rfl
  | i2 => exact hdriven
  | i3 => rw [linesMeet, hdriven, hcs]; rfl
  | i4 => rw [linesMeet, hdriven, hcs, hclk]; rfl
  | _ => exact h

@[simp] theorem homeCp_runPrims (ps : List Prim) (s : State) : homeCp (runPrims ps s) = homeCp s := by
  simp [homeCp]

@[simp] theorem homeCp_settled (s : State) : homeCp (settled s) = homeCp s :=
  homeCp_runPrims s.rest { s with rest := [] }

theorem linesOk_eq (s : State) : linesOk s = linesMeet (homeCp s) (settled s) := by
  have hwire : (settled s).wire = (runPrims s.rest s).wire := by rw [settled_eq]; rfl
  rw [linesMeet_congr hwire]
  rfl

/-- What a primitive does to the wires and the frame word depends on those two only. -/
theorem applyPrim_link {s t : State} (hw : t.wire = s.wire) (hf : t.frame = s.frame) (p : Prim) :
    (applyPrim t p).wire = (applyPrim s p).wire ∧ (applyPrim t p).frame = (applyPrim s p).frame := by
  have hset : ∀ sig lvl, (setLine sig lvl t).wire = (setLine sig lvl s).wire := fun sig lvl =>
    calc (setLine sig lvl t).wire = wireEvent t.wire (.line sig lvl) := by cases sig <;> rfl
      _ = wireEvent s.wire (.line sig lvl) := by rw [hw]
      _ = (setLine sig lvl s).wire := by cases sig <;> rfl
  cases p with
  | load w => exact ⟨hw, rfl⟩
  | line sig lvl => exact ⟨hset sig lvl, by simpa [applyPrim] using hf⟩
  | dataBit k =>
    refine ⟨?_, by simpa [applyPrim] using hf⟩
    simp only [applyPrim, hf]
    exact hset .din _
  | linkDelay => exact ⟨hw, hf⟩

theorem runPrims_link (ps : List Prim) : ∀ {s t : State}, t.wire = s.wire → t.frame = s.frame →
    (runPrims ps t).wire = (runPrims ps s).wire := by
  induction ps with
  | nil => exact fun hw _ => hw
  | cons p ps ih =>
    intro s t hw hf
    obtain ⟨hw, hf⟩ := applyPrim_link hw hf p
    exact ih hw hf

theorem linesOk_congr {s t : State} (hw : t.wire = s.wire) (hf : t.frame = s.frame) (hr : t.rest = s.rest)
    (hc : homeCp t = homeCp s) : linesOk t = linesOk s := by
  rw [linesOk_eq, linesOk_eq, hc]
  refine linesMeet_congr ?_ _
  rw [settled, settled, hr]
  exact runPrims_link _ hw hf

/-- WriteCommand leaves the lines idle, whatever they were. -/
theorem linesIdle_writeCommand (a v : Byte) (s : State) : linesIdle (writeCommand a v s) = true := by
  obtain ⟨-, hcs, hclk, hdin⟩ := writeCommand_any a v s
  rw [linesIdle, hcs, hclk, hdin]
  rfl

/-- Init's statements I2 to I4 are the only ones made of bare primitives. -/
theorem plan_prims {s u : State} {ps : List Prim} (h : plan s = .prims ps u) :
    (s.cp = .i2 ∧ ps = idlePrims .cs true ∧ u = { s with cp := .i3 }) ∨
      (s.cp = .i3 ∧ ps = idlePrims .clk false ∧ u = { s with cp := .i4 }) ∨
      (s.cp = .i4 ∧ ps = idlePrims .din s.cfg.dinIdle ∧ u = { s with cp := .i5 }) := by
  unfold plan at h
  split at h
  · rename_i c hc
    cases c with
    | dig p v dp =>
      simp only [callPlan] at h
      split at h <;> cases h
    | vcc n =>
      simp only [callPlan, samplerPlan] at h
      split at h <;> cases h
    | _ => cases h
  · cases hcp : s.cp with
    | i2 =>
      simp only [cpPlan, hcp] at h
      cases h
      exact .inl ⟨rfl, rfl, rfl⟩
    | i3 =>
      simp only [cpPlan, hcp] at h
      cases h
      exact .inr (.inl ⟨rfl, rfl, rfl⟩)
    | i4 =>
      simp only [cpPlan, hcp] at h
      cases h
      exact .inr (.inr ⟨rfl, rfl, rfl⟩)
    | sampler st n c =>
      simp only [cpPlan, hcp] at h
      cases st with
      | select =>
        simp only [samplerPlan] at h
        split at h <;> cases h
      | _ => cases h
    | temp st called =>
      simp only [cpPlan, hcp] at h
      cases st using tempStep_cases with
      | format =>
        simp only [tempPlan] at h
        split at h <;> cases h
      | shows p => cases p <;> cases h
      | _ => cases h
    | showVoltage p c =>
      simp only [cpPlan, hcp] at h
      cases p <;> cases h
    | _ =>
      simp only [cpPlan, hcp] at h
      cases h

/-- Each of I2 to I4 establishes what the next control point needs of the lines. -/
theorem prims_linesMeet {s u : State} {ps : List Prim} (hok : linesMeet s.cp s = true)
    (h : plan s = .prims ps u) : linesMeet u.cp (runPrims ps u) = true := by
  obtain ⟨hcp, rfl, rfl⟩ | ⟨hcp, rfl, rfl⟩ | ⟨hcp, rfl, rfl⟩ := plan_prims h
  all_goals
    rw [hcp] at hok
    simp_all [linesMeet, linesDriven, linesIdle, idlePrims, runPrims_cons, applyPrim]

theorem CallMove.homeCp_eq {s u : State} (h : CallMove s u) (hc : cpCalled s.cp = false) : homeCp u = homeCp s := by
  cases h with
  | sends | waits => rfl
  | samples | senses => exact (homeCp_of_not_called hc).symm

/-- Past I4 the lines are idle between operations; I1 makes them driven. -/
theorem cpPlan_act_lines {s u : State} (h : cpPlan s = .act u) :
    (s.cp = .i1 ∧ u = { configurePins s with cp := .i2 }) ∨ ∀ t, linesMeet s.cp t = linesIdle t := by
  cases hcp : s.cp with
  | i1 =>
    simp only [cpPlan, hcp] at h
    cases h
    exact .inl ⟨rfl, rfl⟩
  | i2 | i3 | i4 =>
    simp only [cpPlan, hcp] at h
    cases h
  | _ => exact .inr fun _ => rfl

theorem cpPlan_act_linesMeet {s u : State} (hcontrol : controlOk s = true)
    (hok : linesMeet (homeCp s) s = true) (h : cpPlan s = .act u) : linesMeet (homeCp u) u = true := by
  have hu : planState (cpPlan s) = some u := by rw [h]; rfl
  have hmove := cpPlan_controlMove hu
  obtain ⟨-, rfl⟩ | hidle := cpPlan_act_lines h
  · rfl
  · obtain hwire | ⟨-, rfl⟩ := cpPlan_wire hu
    · rw [linesMeet_congr hwire]
      cases hc : cpCalled s.cp with
      | true => rw [hmove.homeCp_eq hcontrol hc, hok]
      | false =>
        rw [homeCp_of_not_called hc, hidle] at hok
        exact linesMeet_of_idle hok _
    · rfl

theorem plan_linesMeet {s u : State} (hcontrol : controlOk s = true) (hok : linesMeet (homeCp s) s = true)
    (h : planState (plan s) = some u) : linesMeet (homeCp u) (runPrims (planPrims (plan s)) u) = true := by
  cases hp : plan s with
  | frame w v =>
    rw [planPrims, ← writeCommand_eq_runPrims]
    exact linesMeet_of_idle (linesIdle_writeCommand _ _ _) _
  | prims ps v =>
    rw [hp] at h
    cases h
    have hcalled : cpCalled s.cp = false ∧ cpCalled u.cp = false := by
      obtain ⟨hcp, -, rfl⟩ | ⟨hcp, -, rfl⟩ | ⟨hcp, -, rfl⟩ := plan_prims hp <;> exact ⟨by rw [hcp]; rfl, rfl⟩
    rw [homeCp_of_not_called hcalled.1] at hok
    rw [homeCp_of_not_called hcalled.2]
    exact prims_linesMeet hok hp
  | act v =>
    obtain ⟨hc, cs, hm⟩ | ⟨hcpPlan, -⟩ := plan_move h
    all_goals
      rw [hp] at h
      cases h
    · show linesMeet (homeCp u) u = true
      rw [hm.homeCp_eq hc, linesMeet_congr hm.wire]
      exact hok
    · exact cpPlan_act_linesMeet hcontrol hok (hcpPlan.symm.trans hp)
  | refuse r =>
    rw [hp] at h
    cases h

theorem controller_linesOk {whole : Bool} {s t : State} (hcontrol : controlOk s = true) (hok : linesOk s = true)
    (h : controller whole s = .next t) : linesOk t = true := by
  rw [linesOk_eq, ← homeCp_settled]
  rw [linesOk_eq] at hok
  obtain ⟨-, hsame | ⟨u, hu, hrest, hplan⟩⟩ := controller_settled h
  · rw [hsame, homeCp_settled, hok]
  · rw [settled_of_rest_nil hrest] at hok
    rw [hplan, homeCp_runPrims]
    exact plan_linesMeet hcontrol hok hu

/-- Settles O54: what the operation in progress leads to is kept by each of its primitives; a frame ends with idle
lines, I2 to I4 establish them one by one, and no other statement past I1 touches the wires. -/
theorem stepKeepsTheLinesIdleBetweenOperations : Obligations.StepKeepsTheLinesIdleBetweenOperations := by
  intro s t hcontrol hok hstep
  have hcontrol : controlOk (takeTurn s).2 = true :=
    (takeTurn_keeps controlOk (fun _ _ _ => rfl) s).trans hcontrol
  have hok : linesOk (takeTurn s).2 = true :=
    (takeTurn_keeps linesOk (fun _ _ _ => linesOk_congr rfl rfl rfl rfl) s).trans hok
  obtain ⟨-, hc⟩ | ⟨-, hc⟩ | ⟨c, -, rfl⟩ | ⟨-, rfl⟩ := step_next hstep
  · exact controller_linesOk hcontrol hok hc
  · exact controller_linesOk hcontrol hok hc
  · exact (adcComplete_keeps linesOk (fun _ _ => linesOk_congr rfl rfl rfl rfl) c _).trans hok
  · rfl

end Sys2Proof.Machine

/-! The ADC and the sensor are set up before use (spec/70_reset_and_hazards.md R282). -/

namespace Sys2Proof.Machine

/-- What a statement of the program does to the ports' setup, and where it leads. -/
structure PortsMove (s u : State) : Prop where
  enabled : u.adcEnabled = true ∨ (u.adcEnabled = s.adcEnabled ∧ (cpUpToI5 s.cp = true → cpUpToI5 u.cp = true))
  configured : u.sensorConfigured = true ∨
    (u.sensorConfigured = s.sensorConfigured ∧ (cpUpToI11 s.cp = true → cpUpToI11 u.cp = true))
  /-- It leads out of a sampling, or back from one that was called, or it is one of a sampling's. -/
  selected : cpSelected u.cp = false ∨ (cpCalled s.cp = true ∧ u.cp = s.resume) ∨
    (∃ st n c, s.cp = .sampler st n c) ∧
      (u.adcSel = .bandgapVsVcc ∨ (u.adcSel = s.adcSel ∧ cpSelected s.cp = true))

theorem cpUpToI11_of_cpUpToI5 {c : Cp} (h : cpUpToI5 c = true) : cpUpToI11 c = true := by
  cases c with
  | i1 | i2 | i3 | i4 | i5 => rfl
  | _ => cases h

/-- Past I11 nothing is set up but what SampleAverageVcc's first statement selects. -/
theorem PortsMove.past {s u : State} (hpast : cpUpToI11 s.cp = false) (he : u.adcEnabled = s.adcEnabled)
    (hc : u.sensorConfigured = s.sensorConfigured)
    (hsel : cpSelected u.cp = false ∨ (cpCalled s.cp = true ∧ u.cp = s.resume) ∨
      (∃ st n c, s.cp = .sampler st n c) ∧
        (u.adcSel = .bandgapVsVcc ∨ (u.adcSel = s.adcSel ∧ cpSelected s.cp = true))) :
    PortsMove s u :=
  ⟨.inr ⟨he, fun h => absurd (cpUpToI11_of_cpUpToI5 h) (by simp [hpast])⟩,
    .inr ⟨hc, fun h => absurd h (by simp [hpast])⟩, hsel⟩

theorem samplerPlan_portsMove {st : SamplerStep} {n : Nat} {c : Caller} {s u : State}
    (hcp : s.cp = .sampler st n c) (h : planState (samplerPlan st n c s) = some u) : PortsMove s u := by
  have hpast : cpUpToI11 s.cp = false := by rw [hcp]; rfl
  cases st with
  | select =>
    simp only [samplerPlan] at h
    split at h <;> cases h
    exact .past hpast rfl rfl (.inr (.inr ⟨⟨_, _, _, hcp⟩, .inl rfl⟩))
  | settle =>
    cases h
    split <;> exact .past hpast rfl rfl (.inr (.inr ⟨⟨_, _, _, hcp⟩, .inr ⟨rfl, by rw [hcp]; rfl⟩⟩))
  | scale =>
    cases h
    unfold scaleVcc
    split <;> exact .past hpast rfl rfl (.inr (.inr ⟨⟨_, _, _, hcp⟩, .inr ⟨rfl, by rw [hcp]; rfl⟩⟩))
  | _ => cases h; exact .past hpast rfl rfl (.inr (.inr ⟨⟨_, _, _, hcp⟩, .inr ⟨rfl, by rw [hcp]; rfl⟩⟩))

theorem tempPlan_portsMove {st : TempStep} {called : Bool} {s u : State} (hcp : s.cp = .temp st called)
    (h : planState (tempPlan st called s) = some u) : PortsMove s u := by
  have hpast : cpUpToI11 s.cp = false := by rw [hcp]; rfl
  cases st using tempStep_cases with
  | again =>
    cases h
    cases called with
    | true => exact .past hpast rfl rfl (.inr (.inl ⟨by rw [hcp]; rfl, rfl⟩))
    | false => exact .past hpast rfl rfl (.inl rfl)
  | format =>
    simp only [tempPlan] at h
    split at h <;> cases h <;> exact .past hpast rfl rfl (.inl rfl)
  | shows p => cases p <;> cases h <;> exact .past hpast rfl rfl (.inl rfl)
  | _ => cases h; exact .past hpast rfl rfl (.inl rfl)

theorem cpPlan_portsMove {s u : State} (h : planState (cpPlan s) = some u) : PortsMove s u := by
  cases hcp : s.cp with
  | i5 =>
    simp only [cpPlan, hcp] at h
    cases h
    exact ⟨.inl rfl, .inr ⟨rfl, fun _ => rfl⟩, .inl rfl⟩
  | i11 =>
    simp only [cpPlan, hcp] at h
    cases h
    exact ⟨.inr ⟨rfl, by rw [hcp]; nofun⟩, .inl rfl, .inl rfl⟩
  | i1 | i2 | i3 | i4 =>
    simp only [cpPlan, hcp] at h
    cases h
    exact ⟨.inr ⟨rfl, fun _ => rfl⟩, .inr ⟨rfl, fun _ => rfl⟩, .inl rfl⟩
  | i6 | i7 | i8 | i9 | i10 =>
    simp only [cpPlan, hcp] at h
    cases h
    exact ⟨.inr ⟨rfl, by rw [hcp]; nofun⟩, .inr ⟨rfl, fun _ => rfl⟩, .inl rfl⟩
  | i12 =>
    simp only [cpPlan, hcp, startup] at h
    split at h <;> cases h <;> exact .past (by rw [hcp]; rfl) rfl rfl (.inl rfl)
  | m1 first =>
    simp only [cpPlan, hcp, turnRound] at h
    split at h <;> cases h <;> exact .past (by rw [hcp]; rfl) rfl rfl (.inl rfl)
  | sampler st n c =>
    simp only [cpPlan, hcp] at h
    exact samplerPlan_portsMove hcp h
  | temp st called =>
    simp only [cpPlan, hcp] at h
    exact tempPlan_portsMove hcp h
  | showVoltage p c =>
    simp only [cpPlan, hcp] at h
    cases p with
    | p3 =>
      cases h
      cases c with
      | script => exact .past (by rw [hcp]; rfl) rfl rfl (.inr (.inl ⟨by rw [hcp]; rfl, rfl⟩))
      | _ => exact .past (by rw [hcp]; rfl) rfl rfl (.inl rfl)
    | _ => cases h; exact .past (by rw [hcp]; rfl) rfl rfl (.inl rfl)
  | _ =>
    simp only [cpPlan, hcp] at h
    cases h
    exact .past (by rw [hcp]; rfl) rfl rfl (.inl rfl)

theorem portsOk_iff (s : State) : portsOk s = true ↔
    (cpUpToI5 (homeCp s) = true ∨ s.adcEnabled = true) ∧
      (cpUpToI11 (homeCp s) = true ∨ s.sensorConfigured = true) ∧
      (cpSelected s.cp = true → s.adcSel = .bandgapVsVcc) := by
  simp only [portsOk, Bool.and_eq_true, Bool.or_eq_true, Bool.not_eq_true', beq_iff_eq, and_assoc]
  cases cpSelected s.cp <;> simp

theorem boundary_not_selected {c : Cp} (h : cpBoundary c = true) : cpSelected c = false := by
  cases c with
  | sampler st n cl =>
    cases st with
    | select => rfl
    | _ => cases h
  | _ => rfl

/-- Where a setup holds past some control points of the fixed program, a statement that does not move it keeps it
there: it stays before them only if it stood before them. -/
theorem setup_of_move {s u : State} {upTo : Cp → Bool} {b b' : Bool} (hmove : ControlMove s u)
    (hcontrol : controlOk s = true) (hport : b' = true ∨ (b' = b ∧ (upTo s.cp = true → upTo u.cp = true)))
    (hok : upTo (homeCp s) = true ∨ b = true) : upTo (homeCp u) = true ∨ b' = true := by
  obtain hb' | ⟨hb', hcp⟩ := hport
  · exact .inr hb'
  · obtain hup | hb := hok
    · left
      cases hc : cpCalled s.cp with
      | true => rw [hmove.homeCp_eq hcontrol hc, hup]
      | false =>
        rw [homeCp_of_not_called hc] at hup
        rw [homeCp_of_not_called (hmove.not_called hc), hcp hup]
    · exact .inr (hb'.trans hb)

theorem cpPlan_portsOk {s u : State} (hcontrol : controlOk s = true) (hok : portsOk s = true)
    (h : planState (cpPlan s) = some u) : portsOk u = true := by
  obtain ⟨henabled, hconfigured, hselected⟩ := (portsOk_iff s).1 hok
  have hmove := cpPlan_controlMove h
  have hports := cpPlan_portsMove h
  refine (portsOk_iff u).2 ⟨setup_of_move hmove hcontrol hports.enabled henabled,
    setup_of_move hmove hcontrol hports.configured hconfigured, fun hsel => ?_⟩
  obtain hu | ⟨hc, hu⟩ | ⟨-, hadc | ⟨hadc, hs⟩⟩ := hports.selected
  · exact absurd hsel (by simp [hu])
  · obtain ⟨-, -, hresume⟩ := (controlOk_iff s).1 hcontrol
    exact absurd hsel (by simp [hu, boundary_not_selected (hresume hc)])
  · exact hadc
  · exact hadc.trans (hselected hs)

theorem CallMove.portsOk {s u : State} (hm : CallMove s u) (hc : cpCalled s.cp = false) (hok : portsOk s = true) :
    portsOk u = true := by
  have hhome := hm.homeCp_eq hc
  obtain ⟨henabled, hconfigured, hselected⟩ := (portsOk_iff s).1 hok
  rw [← hhome] at henabled hconfigured
  cases hm with
  | sends | waits => exact hok
  | samples => exact (portsOk_iff _).2 ⟨henabled, hconfigured, fun _ => rfl⟩
  | senses => exact (portsOk_iff _).2 ⟨henabled, hconfigured, nofun⟩

theorem plan_portsOk {s u : State} (hcontrol : controlOk s = true) (hok : portsOk s = true)
    (h : planState (plan s) = some u) : portsOk u = true := by
  obtain ⟨hc, cs, hm⟩ | ⟨-, hcp⟩ := plan_move h
  · exact hm.portsOk hc hok
  · exact cpPlan_portsOk hcontrol hok hcp

/-- A step keeps what it keeps together with `controlOk`. -/
theorem step_keeps_with_controlOk (f : State → Bool) (hf : ∀ s p, f (applyPrim s p) = f s)
    (hr : ∀ s r, f { s with rest := r } = f s) (hw : ∀ s ts d, f { s with turns := ts, draws := d } = f s)
    (hplan : ∀ s u, controlOk s = true → f s = true → planState (plan s) = some u → f u = true)
    (hadc : ∀ s c, f s = true → f (adcComplete c s) = true) (hreset : ∀ s, f s = true → f (hardReset s) = true)
    {s t : State} (hcontrol : controlOk s = true) (hok : f s = true) (hstep : step s = .next t) : f t = true := by
  have hboth := step_keeps (fun s => controlOk s && f s) (by simp [controlOk, homeCp, hf])
    (fun s r => by rw [hr]; rfl) (fun s ts d => by rw [hw]; rfl)
    (fun s u hrun h hu => by
      rw [Bool.and_eq_true] at h ⊢
      exact ⟨plan_controlOk hrun h.1 hu, hplan s u h.1 h.2 hu⟩)
    (fun s c h => by
      rw [Bool.and_eq_true] at h ⊢
      exact ⟨(adcComplete_keeps controlOk (fun _ _ => rfl) c s).trans h.1, hadc s c h.2⟩)
    (fun s h => by
      rw [Bool.and_eq_true] at h ⊢
      exact ⟨rfl, hreset s h.2⟩)
    (Bool.and_eq_true _ _ ▸ ⟨hcontrol, hok⟩) hstep
  rw [Bool.and_eq_true] at hboth
  exact hboth.2

/-- Settles O55: the statement that leads past I5, past I11 or into a sampling is the one that sets the port up, and a
call returns to the fixed program where it was made. -/
theorem stepKeepsThePortsSetUp : Obligations.StepKeepsThePortsSetUp := by
  intro s t hcontrol hok hstep
  exact step_keeps_with_controlOk portsOk (by simp [portsOk, homeCp]) (fun _ _ => rfl) (fun _ _ _ => rfl)
    (fun _ _ => plan_portsOk) (fun s c h => (adcComplete_keeps portsOk (fun _ _ => rfl) c s).trans h)
    (fun _ _ => rfl) hcontrol hok hstep

end Sys2Proof.Machine

/-! The sampler's ranges (spec/42_voltage_sampler.md R154, R155, R159) and the widths of the answers
(spec/10_state.md R31, R32). -/

namespace Sys2Proof.Machine

/-! The widths. -/

theorem valuesOk_iff (s : State) : valuesOk s = true ↔
    s.sample ≤ s.cfg.maxCode ∧ s.adcResult ≤ s.cfg.maxCode ∧ readingFits s.cfg s.reading = true := by
  simp only [valuesOk, Bool.and_eq_true, decide_eq_true_eq, and_assoc]

/-- A statement takes the sample from the ADC's result and the reading from the sensor's answer, or keeps them; the
completion flag it clears or keeps. -/
structure ValuesMove (s u : State) : Prop where
  sample : u.sample = s.sample ∨ u.sample = s.adcResult
  result : u.adcResult = s.adcResult
  reading : u.reading = s.reading ∨ u.reading = sensorAnswer s
  done : u.adcDone = s.adcDone ∨ (u.adcDone = false ∧ ∃ n c, s.cp = .sampler .clearDone n c)

theorem ValuesMove.keeps {s u : State} (hs : u.sample = s.sample) (hr : u.adcResult = s.adcResult)
    (hq : u.reading = s.reading) (hd : u.adcDone = s.adcDone) : ValuesMove s u := ⟨.inl hs, hr, .inl hq, .inl hd⟩

theorem samplerPlan_valuesMove {st : SamplerStep} {n : Nat} {c : Caller} {s u : State}
    (hcp : s.cp = .sampler st n c) (h : planState (samplerPlan st n c s) = some u) : ValuesMove s u := by
  cases st with
  | read => cases h; exact ⟨.inr rfl, rfl, .inl rfl, .inl rfl⟩
  | clearDone => cases h; exact ⟨.inl rfl, rfl, .inl rfl, .inr ⟨rfl, n, c, hcp⟩⟩
  | select =>
    simp only [samplerPlan] at h
    split at h <;> cases h
    exact .keeps rfl rfl rfl rfl
  | settle =>
    cases h
    split <;> exact .keeps rfl rfl rfl rfl
  | scale =>
    cases h
    unfold scaleVcc
    split <;> exact .keeps rfl rfl rfl rfl
  | _ => cases h; exact .keeps rfl rfl rfl rfl

theorem tempPlan_valuesMove {st : TempStep} {called : Bool} {s u : State}
    (h : planState (tempPlan st called s) = some u) : ValuesMove s u := by
  cases st using tempStep_cases with
  | read => cases h; exact ⟨.inl rfl, rfl, .inr rfl, .inl rfl⟩
  | format =>
    simp only [tempPlan] at h
    split at h <;> cases h <;> exact .keeps rfl rfl rfl rfl
  | shows p => cases p <;> cases h <;> exact .keeps rfl rfl rfl rfl
  | _ => cases h; exact .keeps rfl rfl rfl rfl

theorem cpPlan_valuesMove {s u : State} (h : planState (cpPlan s) = some u) : ValuesMove s u := by
  cases hcp : s.cp with
  | sampler st n c =>
    simp only [cpPlan, hcp] at h
    exact samplerPlan_valuesMove hcp h
  | temp st called =>
    simp only [cpPlan, hcp] at h
    exact tempPlan_valuesMove h
  | showVoltage p c =>
    simp only [cpPlan, hcp] at h
    cases p with
    | p3 =>
      cases h
      show ValuesMove s (afterVoltage c s)
      rw [afterVoltage_moves]
      exact .keeps rfl rfl rfl rfl
    | _ => cases h; exact .keeps rfl rfl rfl rfl
  | i12 =>
    simp only [cpPlan, hcp, startup] at h
    split at h <;> cases h <;> exact .keeps rfl rfl rfl rfl
  | m1 first =>
    simp only [cpPlan, hcp, turnRound] at h
    split at h <;> cases h <;> exact .keeps rfl rfl rfl rfl
  | _ =>
    simp only [cpPlan, hcp] at h
    cases h
    exact .keeps rfl rfl rfl rfl

theorem plan_cfg {s u : State} (h : planState (plan s) = some u) : u.cfg = s.cfg := (plan_events h).1

theorem plan_valuesOk {s u : State} (hok : valuesOk s = true) (h : planState (plan s) = some u) :
    valuesOk u = true := by
  obtain ⟨hsample, hresult, hreading⟩ := (valuesOk_iff s).1 hok
  have hcfg := plan_cfg h
  obtain ⟨-, cs, hm⟩ | ⟨-, hcp⟩ := plan_move h
  · cases hm <;> exact hok
  · have hm := cpPlan_valuesMove hcp
    rw [valuesOk_iff, hcfg, hm.result]
    refine ⟨?_, hresult, ?_⟩
    · obtain h | h := hm.sample <;> rw [h]
      · exact hsample
      · exact hresult
    · obtain h | h := hm.reading <;> rw [h]
      · exact hreading
      · exact readingFits_sensorValue _ _

theorem adcComplete_valuesOk (c : Nat) {s : State} (hok : valuesOk s = true) : valuesOk (adcComplete c s) = true := by
  obtain ⟨hsample, -, hreading⟩ := (valuesOk_iff s).1 hok
  unfold adcComplete
  split
  · exact (valuesOk_iff _).2 ⟨hsample, adcCode_le _ _, hreading⟩
  · exact hok

theorem readingFits_zero (c : Config) : readingFits c 0 = true := by
  have hpos : (0 : Int) < 2 ^ c.readingWidth := by positivity
  exact decide_eq_true ⟨by omega, by omega⟩

theorem hardReset_valuesOk (s : State) : valuesOk (hardReset s) = true :=
  (valuesOk_iff _).2 ⟨Nat.zero_le _, adcCode_le _ _, readingFits_zero _⟩

/-! The completion flag (spec/10_state.md R30). -/

theorem plan_adcDone {s u : State} (h : planState (plan s) = some u) :
    u.adcDone = s.adcDone ∨ (u.adcDone = false ∧ ∃ n c, s.cp = .sampler .clearDone n c) := by
  obtain ⟨-, cs, hm⟩ | ⟨-, hcp⟩ := plan_move h
  · cases hm <;> exact .inl rfl
  · exact (cpPlan_valuesMove hcp).done

theorem controller_adcDone {whole : Bool} {s t : State} (h : controller whole s = .next t) :
    t.adcDone = s.adcDone ∨ (t.adcDone = false ∧ ∃ n c, s.cp = .sampler .clearDone n c) := by
  obtain ⟨-, ⟨hkeep, -⟩ | ⟨-, u, htu, hu⟩⟩ := controller_keeps State.adcDone applyPrim_adcDone (fun _ _ => rfl) h
  · exact .inl hkeep
  · rw [htu]
    exact plan_adcDone hu

theorem adcComplete_of_busy (c : Nat) {s : State} (h : s.adcBusy = true) :
    adcComplete c s = { s with adcResult := adcCode s.cfg c, adcDone := true, adcBusy := false } := if_pos h

theorem adcComplete_of_not_busy (c : Nat) {s : State} (h : s.adcBusy = false) : adcComplete c s = s :=
  if_neg (by simp [h])

/-- Settles O29: of the controller's statements only AdcClearDone writes the flag, and the ADC does so only with a
conversion in flight. -/
theorem onlyTheAdcSetsAndOnlyClearDoneClearsTheFlag : Obligations.OnlyTheAdcSetsAndOnlyClearDoneClearsTheFlag := by
  intro s t hstep hne
  have hturn := takeTurn_keeps (fun s => (s.adcDone, s.adcBusy, s.cp)) (fun _ _ _ => rfl) s
  obtain ⟨hdone, hbusy, hcp⟩ : (takeTurn s).2.adcDone = s.adcDone ∧ (takeTurn s).2.adcBusy = s.adcBusy ∧
      (takeTurn s).2.cp = s.cp := by simpa only [Prod.mk.injEq] using hturn
  have hcontroller {whole : Bool} (hc : controller whole (takeTurn s).2 = .next t) :
      t.adcDone = false ∧ ∃ n c, s.cp = .sampler .clearDone n c := by
    have hmove := controller_adcDone hc
    rw [hdone, hcp] at hmove
    exact hmove.resolve_left hne
  obtain ⟨-, hc⟩ | ⟨-, hc⟩ | ⟨c, hadc, rfl⟩ | ⟨hreset, -⟩ := step_next hstep
  · exact .inr (.inl (hcontroller hc))
  · exact .inr (.inl (hcontroller hc))
  · cases hb : s.adcBusy with
    | true =>
      rw [adcComplete_of_busy c (hbusy.trans hb)]
      exact .inl ⟨rfl, rfl, rfl, c, hadc⟩
    | false =>
      rw [adcComplete_of_not_busy c (hbusy.trans hb)] at hne
      exact absurd hdone hne
  · exact .inr (.inr hreset)

/-! The sampler's counter and sums. -/

/-- Outside a sampling there is nothing to keep, nor before its first statement. -/
theorem samplerOk_of_not_selected {s : State} (h : cpSelected s.cp = false) : samplerOk s = true := by
  unfold samplerOk
  cases hcp : s.cp with
  | sampler st n c =>
    cases st with
    | select => rfl
    | _ => rw [hcp] at h; cases h
  | _ => rfl

/-- Between a sample's start and its addition the sum leaves room for one more of the largest code. -/
theorem samplerOk_before_sum {s : State} {st : SamplerStep} {n : Nat} {c : Caller} (hcp : s.cp = .sampler st n c)
    (hst : st ∈ [.start, .poll, .clearDone, .read, .accumulate]) :
    samplerOk s = decide (1 ≤ s.n ∧ s.n ≤ n ∧ n ≤ s.cfg.maxSamples ∧
      s.acc.toNat + s.cfg.maxCode ≤ s.cfg.maxCode * s.n) := by
  simp only [samplerOk, hcp]
  cases st with
  | start | poll | clearDone | read | accumulate => rfl
  | _ => simp at hst

/-- A sum in range does not wrap when a code is added (R159). -/
theorem accumulate_toNat {s : State} {n : Nat} (hsample : s.sample ≤ s.cfg.maxCode) (hn : s.n ≤ n)
    (hmax : n ≤ s.cfg.maxSamples) (hroom : s.acc.toNat + s.cfg.maxCode ≤ s.cfg.maxCode * s.n) :
    (accumulate s).acc.toNat = s.acc.toNat + s.sample := by
  have hfit : s.cfg.maxCode * s.n ≤ 2 ^ 32 - 1 := maxCode_mul_le (hn.trans hmax)
  show (s.acc + BitVec.ofNat 32 s.sample).toNat = _
  rw [BitVec.toNat_add, BitVec.toNat_ofNat]
  omega

/-- The average of codes is at most the largest code (R155). -/
theorem average_toNat_le {s : State} {n : Nat} (hsum : s.acc.toNat ≤ s.cfg.maxCode * n) :
    (average n s).avg.toNat ≤ s.cfg.maxCode :=
  calc (average n s).avg.toNat ≤ s.acc.toNat / n := by
        show (BitVec.ofNat 32 (s.acc.toNat / n)).toNat ≤ _
        rw [BitVec.toNat_ofNat]
        exact Nat.mod_le _ _
    _ ≤ s.cfg.maxCode := Nat.div_le_of_le_mul (by rwa [Nat.mul_comm])

theorem samplerPlan_samplerOk {st : SamplerStep} {n : Nat} {c : Caller} {s u : State}
    (hcp : s.cp = .sampler st n c) (hvalues : valuesOk s = true) (hok : samplerOk s = true)
    (h : planState (samplerPlan st n c s) = some u) : samplerOk u = true := by
  obtain ⟨hsample, -, -⟩ := (valuesOk_iff s).1 hvalues
  cases st with
  | select =>
    simp only [samplerPlan] at h
    split at h <;> cases h
    exact decide_eq_true ‹_›
  | clearAcc =>
    simp only [samplerOk, hcp, decide_eq_true_eq] at hok
    cases h
    refine decide_eq_true ⟨le_refl 1, hok.1, hok.2, ?_⟩
    show 0 + s.cfg.maxCode ≤ s.cfg.maxCode * 1
    omega
  | start | clearDone | read =>
    rw [samplerOk_before_sum hcp (by decide)] at hok
    cases h
    exact hok
  | poll =>
    rw [samplerOk_before_sum hcp (by decide)] at hok
    cases h
    rw [samplerOk_before_sum rfl (by split <;> decide)]
    exact hok
  | accumulate =>
    rw [samplerOk_before_sum hcp (by decide)] at hok
    obtain ⟨h1, hn, hmax, hroom⟩ := of_decide_eq_true hok
    cases h
    refine decide_eq_true ⟨h1, hn, hmax, ?_⟩
    show (accumulate s).acc.toNat ≤ s.cfg.maxCode * s.n
    rw [accumulate_toNat hsample hn hmax hroom]
    omega
  | settle =>
    simp only [samplerOk, hcp, decide_eq_true_eq] at hok
    obtain ⟨h1, hn, hmax, hsum⟩ := hok
    cases h
    split
    · refine decide_eq_true ⟨?_, ?_, hmax, ?_⟩
      · show 1 ≤ s.n + 1
        omega
      · show s.n + 1 ≤ n
        omega
      · show s.acc.toNat + s.cfg.maxCode ≤ s.cfg.maxCode * (s.n + 1)
        rw [Nat.mul_add_one]
        omega
    · have hlast : s.n = n := by omega
      exact decide_eq_true ⟨by omega, hmax, by rw [← hlast]; exact hsum⟩
  | average =>
    simp only [samplerOk, hcp, decide_eq_true_eq] at hok
    obtain ⟨h1, hmax, hsum⟩ := hok
    cases h
    exact decide_eq_true ⟨h1, hmax, average_toNat_le hsum⟩
  | scale =>
    cases h
    unfold scaleVcc
    split
    · exact hok
    · rfl

theorem cpPlan_samplerOk {s u : State} (hcontrol : controlOk s = true) (hvalues : valuesOk s = true)
    (hok : samplerOk s = true) (h : planState (cpPlan s) = some u) : samplerOk u = true := by
  obtain hu | ⟨hc, hu⟩ | ⟨⟨st, n, c, hcp⟩, -⟩ := (cpPlan_portsMove h).selected
  · exact samplerOk_of_not_selected hu
  · obtain ⟨-, -, hresume⟩ := (controlOk_iff s).1 hcontrol
    exact samplerOk_of_not_selected (by rw [hu, boundary_not_selected (hresume hc)])
  · simp only [cpPlan, hcp] at h
    exact samplerPlan_samplerOk hcp hvalues hok h

theorem plan_samplerOk {s u : State} (hcontrol : controlOk s = true) (hvalues : valuesOk s = true)
    (hok : samplerOk s = true) (h : planState (plan s) = some u) : samplerOk u = true := by
  obtain ⟨-, cs, hm⟩ | ⟨-, hcp⟩ := plan_move h
  · cases hm with
    | sends | waits => exact hok
    | samples n hb hn => exact decide_eq_true hn
    | senses => rfl
  · exact cpPlan_samplerOk hcontrol hvalues hok hcp

/-- Settles O53: a sampling begins with a count in range, each sample adds at most the largest code to the sum, and
the ADC and the sensor answer within their widths. -/
theorem stepKeepsTheSamplerInRange : Obligations.StepKeepsTheSamplerInRange := by
  intro s t hcontrol hvalues hok hstep
  have hboth := step_keeps_with_controlOk (fun s => valuesOk s && samplerOk s)
    (by simp [valuesOk, samplerOk]) (fun _ _ => rfl) (fun _ _ _ => rfl)
    (fun s u hcontrol h hu => by
      rw [Bool.and_eq_true] at h ⊢
      exact ⟨plan_valuesOk h.1 hu, plan_samplerOk hcontrol h.1 h.2 hu⟩)
    (fun s c h => by
      rw [Bool.and_eq_true] at h ⊢
      exact ⟨adcComplete_valuesOk c h.1, (adcComplete_keeps samplerOk (fun _ _ => rfl) c s).trans h.2⟩)
    (fun s _ => by rw [Bool.and_eq_true]; exact ⟨hardReset_valuesOk s, rfl⟩)
    hcontrol (Bool.and_eq_true _ _ ▸ ⟨hvalues, hok⟩) hstep
  rwa [Bool.and_eq_true] at hboth

end Sys2Proof.Machine

/-! The link's timing (spec/40_serial_link.md R112, spec/70_reset_and_hazards.md R286). -/

namespace Sys2Proof.Machine

/-- The newest event is a line event. -/
def newestIsLine : List Event → Bool
  | [] => false
  | e :: _ => isLine e

theorem spaced_cons (e : Event) (es : List Event) :
    spaced (e :: es) = ((!newestIsLine es || isDelay e) && spaced es) := by
  cases es <;> rfl

theorem newestOk_eq (es : List Event) (ps : List Prim) :
    newestOk es ps = (!newestIsLine es || ps.head? == some .linkDelay) := by
  unfold newestOk
  split
  · rfl
  · rename_i hne
    cases es with
    | nil => rfl
    | cons e es =>
      cases e with
      | line sig lvl => exact absurd rfl (hne sig lvl es)
      | _ => rfl

/-- The trace is spaced so far, and will be when the primitives are performed. -/
structure Spacing (es : List Event) (ps : List Prim) : Prop where
  past : spaced es = true
  newest : newestIsLine es = true → ps.head? = some .linkDelay
  coming : primsSpaced ps = true

theorem linkSpaced_iff (s : State) : linkSpaced s = true ↔ 1 ≤ s.cfg.tLink ∧ Spacing s.events s.rest := by
  simp only [linkSpaced, newestOk_eq, Bool.and_eq_true, decide_eq_true_eq, Bool.or_eq_true, Bool.not_eq_true',
    beq_iff_eq, ← Bool.not_eq_true, ← imp_iff_not_or]
  exact ⟨fun ⟨⟨⟨ht, hp⟩, hn⟩, hc⟩ => ⟨ht, hp, hn, hc⟩, fun ⟨ht, hp, hn, hc⟩ => ⟨⟨⟨ht, hp⟩, hn⟩, hc⟩⟩

theorem Spacing.not_newest {es : List Event} {p : Prim} {ps : List Prim} (h : Spacing es (p :: ps))
    (hp : p ≠ .linkDelay) : newestIsLine es = false :=
  Bool.eq_false_iff.2 fun hl => hp (Option.some.inj (h.newest hl))

theorem Spacing.quiet {es : List Event} {ps : List Prim} (hp : spaced es = true) (hn : newestIsLine es = false)
    (hc : primsSpaced ps = true) : Spacing es ps :=
  ⟨hp, fun hl => absurd (hn.symm.trans hl) Bool.false_ne_true, hc⟩

/-- A line event is performed where none is the newest, and its delay comes next. -/
theorem Spacing.line {es : List Event} {p : Prim} {ps : List Prim} (h : Spacing es (p :: ps))
    (hp : (∃ sig lvl, p = .line sig lvl) ∨ ∃ k, p = .dataBit k) (sig : Sig) (lvl : Bool) :
    Spacing (.line sig lvl :: es) ps := by
  have hold : newestIsLine es = false := h.not_newest (by obtain ⟨_, _, rfl⟩ | ⟨_, rfl⟩ := hp <;> nofun)
  have hcoming := h.coming
  have hnext : ps.head? = some .linkDelay ∧ primsSpaced ps = true := by
    obtain ⟨_, _, rfl⟩ | ⟨_, rfl⟩ := hp
    all_goals
      cases ps with
      | nil => cases hcoming
      | cons q qs =>
        cases q with
        | linkDelay => exact ⟨rfl, hcoming⟩
        | _ => cases hcoming
  exact ⟨by rw [spaced_cons, hold, h.past]; rfl, fun _ => hnext.1, hnext.2⟩

theorem applyPrim_spacing {s : State} {p : Prim} {ps : List Prim} (ht : 1 ≤ s.cfg.tLink)
    (h : Spacing s.events (p :: ps)) : Spacing (applyPrim s p).events ps := by
  cases p with
  | load w => exact .quiet h.past (h.not_newest nofun) h.coming
  | line sig lvl =>
    simp only [applyPrim, setLine_events]
    exact h.line (.inl ⟨sig, lvl, rfl⟩) sig lvl
  | dataBit k =>
    simp only [applyPrim, setLine_events]
    exact h.line (.inr ⟨k, rfl⟩) .din _
  | linkDelay =>
    have hdelay : isDelay (.delay s.cfg.tLink) = true := decide_eq_true ht
    exact ⟨by rw [applyPrim, linkDelay_events, spaced_cons, hdelay, h.past, Bool.or_true]; rfl, nofun, h.coming⟩

theorem runPrims_spacing (ps : List Prim) : ∀ s : State, 1 ≤ s.cfg.tLink → Spacing s.events ps →
    Spacing (runPrims ps s).events [] := by
  induction ps with
  | nil => exact fun _ _ h => h
  | cons p ps ih => exact fun s ht h => ih _ (by simpa using ht) (applyPrim_spacing ht h)

theorem perform_linkSpaced (whole : Bool) {ps : List Prim} {s : State} (hps : ps ≠ []) (ht : 1 ≤ s.cfg.tLink)
    (h : Spacing s.events ps) : linkSpaced (perform whole ps s) = true := by
  rw [linkSpaced_iff]
  cases whole with
  | true =>
    refine ⟨by simpa [perform] using ht, ?_⟩
    simp only [perform, if_true, runPrims_rest]
    exact runPrims_spacing ps { s with rest := [] } ht h
  | false =>
    cases ps with
    | nil => exact absurd rfl hps
    | cons p ps =>
      refine ⟨by simpa [perform] using ht, ?_⟩
      have hspacing := applyPrim_spacing (s := { s with rest := ps }) ht h
      simpa only [perform, Bool.false_eq_true, if_false, applyPrim_rest] using hspacing

/-- In a frame and in Init's statements every line event has its delay. -/
theorem planPrims_spaced (s : State) : primsSpaced (planPrims (plan s)) = true := by
  cases hp : plan s with
  | frame w u => rfl
  | prims ps u => obtain ⟨-, rfl, -⟩ | ⟨-, rfl, -⟩ | ⟨-, rfl, -⟩ := plan_prims hp <;> rfl
  | act u => rfl
  | refuse r => rfl

/-- A plan begins where no delay is outstanding. -/
theorem plan_spacing {s u : State} (h : Spacing s.events []) (hu : planState (plan s) = some u) :
    Spacing u.events (planPrims (plan s)) := by
  have hold : newestIsLine s.events = false := Bool.eq_false_iff.2 fun hl => nomatch h.newest hl
  obtain ⟨-, -, hevents | ⟨e, he, hevents⟩⟩ := plan_events hu
  · rw [hevents]
    exact .quiet h.past hold (planPrims_spaced s)
  · have hnew : newestIsLine (e :: s.events) = false := he
    rw [hevents]
    exact .quiet (by rw [spaced_cons, hold, h.past]; rfl) hnew (planPrims_spaced s)

theorem writeCommand_eq_perform (w : FrameWord) {s : State} (h : s.rest = []) :
    writeCommand (wordAddr w) (wordValue w) s = perform true (framePrims w) s := by
  simp only [writeCommand_eq_runPrims, perform, if_true, rest_nil_update s h]

theorem controller_linkSpaced {whole : Bool} {s t : State} (hok : linkSpaced s = true)
    (h : controller whole s = .next t) : linkSpaced t = true := by
  obtain ⟨ht, hspacing⟩ := (linkSpaced_iff s).1 hok
  obtain ⟨-, ⟨p, ps, hrest, rfl⟩ | ⟨hnil, hplan⟩⟩ := controller_next h
  · rw [hrest] at hspacing
    exact perform_linkSpaced whole nofun ht hspacing
  · rw [hnil] at hspacing
    have hbegin : ∀ u, planState (plan s) = some u →
        1 ≤ u.cfg.tLink ∧ u.rest = [] ∧ Spacing u.events (planPrims (plan s)) := fun u hu =>
      ⟨by rw [plan_cfg hu]; exact ht, (plan_events hu).2.1.trans hnil, plan_spacing hspacing hu⟩
    obtain ⟨w, u, hp, ⟨-, rfl⟩ | ⟨-, rfl⟩⟩ | ⟨ps, u, hp, rfl⟩ | hp := hplan
    all_goals rw [hp] at hbegin
    · obtain ⟨hu, hrest, hprims⟩ := hbegin u rfl
      rw [writeCommand_eq_perform w hrest]
      exact perform_linkSpaced true nofun hu hprims
    · obtain ⟨hu, -, hprims⟩ := hbegin u rfl
      exact perform_linkSpaced false nofun hu hprims
    · obtain ⟨hu, -, hprims⟩ := hbegin u rfl
      have hps : ps ≠ [] := by
        obtain ⟨-, rfl, -⟩ | ⟨-, rfl, -⟩ | ⟨-, rfl, -⟩ := plan_prims hp <;> nofun
      exact perform_linkSpaced whole hps hu hprims
    · obtain ⟨hu, hrest, hprims⟩ := hbegin t rfl
      exact (linkSpaced_iff t).2 ⟨hu, by rw [hrest]; exact hprims⟩

/-- Settles O56: every primitive keeps the spacing of the trace and of the primitives to come, and a plan begins only
when no line event waits for its delay. -/
theorem stepKeepsLinkEventsSpaced : Obligations.StepKeepsLinkEventsSpaced := by
  intro s t hok hstep
  have hok : linkSpaced (takeTurn s).2 = true := (takeTurn_keeps linkSpaced (fun _ _ _ => rfl) s).trans hok
  obtain ⟨-, hc⟩ | ⟨-, hc⟩ | ⟨c, -, rfl⟩ | ⟨-, rfl⟩ := step_next hstep
  · exact controller_linkSpaced hok hc
  · exact controller_linkSpaced hok hc
  · exact (adcComplete_keeps linkSpaced (fun _ _ => rfl) c _).trans hok
  · exact (linkSpaced_iff _).2 ⟨((linkSpaced_iff _).1 hok).1, rfl, nofun, rfl⟩

/-! The register file and the configuration. -/

theorem plan_rxCanonical {s u : State} (hok : rxCanonical s = true) (h : planState (plan s) = some u) :
    Memory.wf u.rx.cells = true := by
  obtain hrx | hrx := plan_rx h <;> rw [hrx]
  · exact hok
  · rfl

/-- Settles O57: a plan leaves the register file alone or empties it, and every primitive keeps the form. -/
theorem stepKeepsTheRegisterFileCanonical : Obligations.StepKeepsTheRegisterFileCanonical := by
  intro s t hok hstep
  have hok : rxCanonical (takeTurn s).2 = true := (takeTurn_keeps rxCanonical (fun _ _ _ => rfl) s).trans hok
  have hcontroller {whole : Bool} (hc : controller whole (takeTurn s).2 = .next t) : Memory.wf t.rx.cells = true := by
    obtain ⟨-, ⟨p, ps, -, rfl⟩ | ⟨-, ⟨w, u, hp, ⟨-, rfl⟩ | ⟨-, rfl⟩⟩ | ⟨ps, u, hp, rfl⟩ | hp⟩⟩ := controller_next hc
    · exact perform_wf _ _ _ hok
    · rw [writeCommand_eq_runPrims]
      exact runPrims_wf _ u (plan_rxCanonical hok (by rw [hp]; rfl))
    · exact perform_wf _ _ u (plan_rxCanonical hok (by rw [hp]; rfl))
    · exact perform_wf _ _ u (plan_rxCanonical hok (by rw [hp]; rfl))
    · exact plan_rxCanonical hok (by rw [hp]; rfl)
  obtain ⟨-, hc⟩ | ⟨-, hc⟩ | ⟨c, -, rfl⟩ | ⟨-, rfl⟩ := step_next hstep
  · exact hcontroller hc
  · exact hcontroller hc
  · exact (adcComplete_keeps rxCanonical (fun _ _ => rfl) c _).trans hok
  · rfl

/-- Settles O58: no plan, no primitive and no other agent's step writes the configuration. -/
theorem configurationNeverChanges : Obligations.ConfigurationNeverChanges := by
  intro s t hstep
  have hcfg := step_keeps (fun u => decide (u.cfg = s.cfg)) (by simp) (fun _ _ => rfl) (fun _ _ _ => rfl)
    (fun v u _ hv hu => by rw [plan_cfg hu]; exact hv)
    (fun v c hv => (adcComplete_keeps (fun u => decide (u.cfg = s.cfg)) (fun _ _ => rfl) c v).trans hv)
    (fun _ hv => hv) (decide_eq_true rfl) hstep
  exact of_decide_eq_true hcfg

/-- Settles O48: in phase Faulted the controller has no step, and the ADC's completion touches none of these. -/
theorem recordedFaultStaysUntilReset : Obligations.RecordedFaultStaysUntilReset := by
  intro s t hphase hstep hturn
  have hkeep := takeTurn_keeps (fun s => (s.phase, s.fault, s.trace, s.cs, s.clk, s.din)) (fun _ _ _ => rfl) s
  have hfaulted : (takeTurn s).2.phase = .faulted := (congrArg Prod.fst hkeep).trans hphase
  obtain ⟨-, hc⟩ | ⟨-, hc⟩ | ⟨c, -, rfl⟩ | ⟨hreset, -⟩ := step_next hstep
  · exact absurd hfaulted (controller_next hc).1
  · exact absurd hfaulted (controller_next hc).1
  · have hadc := adcComplete_keeps (fun s => (s.phase, s.fault, s.trace, s.cs, s.clk, s.din)) (fun _ _ => rfl) c
      (takeTurn s).2
    simp only [hkeep, Prod.mk.injEq] at hadc
    exact ⟨hadc.1.trans hphase, hadc.2⟩
  · exact absurd hreset hturn

end Sys2Proof.Machine

/-! The serial link's operations and the nine commands (spec/40_serial_link.md R110, R115 to R117,
spec/41_display_register.md R133 to R139, spec/45_display_receiver.md R231, R232). -/

namespace Sys2Proof.Machine

/-- Settles O7: each line is driven by its own case, and the trace and the receiver are the only other fields
written. -/
theorem setLineDrivesOneLineAndRecordsIt : Obligations.SetLineDrivesOneLineAndRecordsIt := by
  intro sig lvl s
  refine ⟨by cases sig <;> rfl, fun other hne => ?_, setLine_trace s sig lvl, by cases sig <;> rfl⟩
  cases sig with
  | cs =>
    cases other with
    | cs => exact absurd rfl hne
    | _ => rfl
  | clk =>
    cases other with
    | clk => exact absurd rfl hne
    | _ => rfl
  | din =>
    cases other with
    | din => exact absurd rfl hne
    | _ => rfl

/-! The receiver's latch. -/

theorem Rx.latch_of_count {r : Rx} (h : r.count = 16) :
    r.latch = r.write (wordAddr r.shift) (wordValue r.shift) := if_pos h

theorem Rx.latch_of_count_ne {r : Rx} (h : r.count ≠ 16) : r.latch = r.forget := if_neg h

@[simp] theorem Rx.reg_forget (r : Rx) (a : Byte) : r.forget.reg a = Config.freeReg (r.epoch + 1) a := rfl

/-- Settles O12: a rising chip select latches, and the latch writes or forgets by the bit count. -/
theorem latchWritesOnlySixteenBitFrames : Obligations.LatchWritesOnlySixteenBitFrames := by
  intro r k d
  have hlatch : r.onLine (.driven false) (.driven k) (.driven d) .cs true = r.latch := rfl
  rw [hlatch]
  refine ⟨fun h a => ?_, fun h => ⟨?_, fun a ha => ?_⟩⟩
  · rw [Rx.latch_of_count_ne h, Rx.reg_forget]
  · rw [Rx.latch_of_count h, Rx.reg_write_same]
  · rw [Rx.latch_of_count h, Rx.reg_write_other _ _ _ _ ha]

/-! A frame's events, counted. -/

/-- A count over a frame's events is that over its sixteen bits and the chip select around them. -/
theorem length_filter_frameEvents (p : Event → Bool) (t : Micros) (w : FrameWord) :
    ((frameEvents t w).filter p).length =
      (List.filter p [.line .cs false, .delay t]).length +
        (frameBits.map fun k : Fin 16 => ((bitEvents t (w.getLsbD k.val)).filter p).length).sum +
        (List.filter p [.line .cs true, .delay t]).length := by
  rw [frameEvents, List.filter_append, List.filter_append, List.length_append, List.length_append,
    List.filter_flatMap, List.length_flatMap]

theorem length_frameEvents (t : Micros) (w : FrameWord) : (frameEvents t w).length = 100 := rfl

theorem length_lineEvents_frameEvents (t : Micros) (w : FrameWord) : (lineEvents (frameEvents t w)).length = 50 :=
  rfl

/-- One CLK-high event a bit. -/
theorem clockHighs_frameEvents (t : Micros) (w : FrameWord) :
    ((frameEvents t w).filter fun e => e == .line .clk true).length = 16 := by
  have hbit : ∀ b, ((bitEvents t b).filter fun e => e == .line .clk true).length = 1 := by
    intro b
    simp [bitEvents]
  rw [length_filter_frameEvents]
  simp only [hbit]
  rfl

/-- From a low clock every bit has one rising edge and leaves the clock low. -/
theorem clkRises_bits (t : Micros) (bs : List Bool) (es : List Event) :
    clkRises (.driven false) (bs.flatMap (bitEvents t) ++ es) = bs.length + clkRises (.driven false) es := by
  induction bs with
  | nil => simp
  | cons b bs ih =>
    have hbit : ∀ fs, clkRises (.driven false) (bitEvents t b ++ fs) = 1 + clkRises (.driven false) fs := fun fs => by
      simp [bitEvents, clkRises]
    rw [List.flatMap_cons, List.append_assoc, hbit, ih, List.length_cons]
    omega

theorem clkRises_frameEvents (t : Micros) (w : FrameWord) : clkRises (.driven false) (frameEvents t w) = 16 := by
  have hbits := clkRises_bits t (frameBits.map fun k : Fin 16 => w.getLsbD k.val) [.line .cs true, .delay t]
  rw [List.flatMap_map] at hbits
  rw [frameEvents, List.append_assoc]
  exact hbits

/-- Settles O10: WriteCommand's events and final lines are the same from any lines, and their counts are those of
sixteen bits and the chip select around them. -/
theorem writeCommandFramesTwoBytes : Obligations.WriteCommandFramesTwoBytes := by
  intro a v s
  obtain ⟨htrace, hcs, hclk, hdin⟩ := writeCommand_any a v s
  rw [frameWord_bit0] at hdin
  refine ⟨htrace, length_frameEvents _ _, length_lineEvents_frameEvents _ _, rfl, rfl, clockHighs_frameEvents _ _,
    fun hidle => ?_, hcs, hclk, hdin⟩
  obtain ⟨-, hclk, -⟩ := linesIdle_cases hidle
  rw [hclk, clkRises_frameEvents]

/-! The commands. -/

theorem writeCommand_trace (a v : Byte) (s : State) :
    (writeCommand a v s).trace = s.trace ++ frameEvents s.cfg.tLink (frameWord a v) :=
  (writeCommand_any a v s).1

/-- Settles O13: each digit write is WriteCommand of its position's address. -/
theorem digitWritesSendTheirFrames : Obligations.DigitWritesSendTheirFrames := fun _ _ _ =>
  ⟨⟨_, rfl, writeCommand_trace _ _ _⟩, ⟨_, rfl, writeCommand_trace _ _ _⟩, ⟨_, rfl, writeCommand_trace _ _ _⟩,
    ⟨_, rfl, writeCommand_trace _ _ _⟩⟩

/-- Settles O14: each control write is WriteCommand of its configured address. -/
theorem controlWritesSendTheirFrames : Obligations.ControlWritesSendTheirFrames := fun _ _ =>
  ⟨⟨_, rfl, writeCommand_trace _ _ _⟩, ⟨_, rfl, writeCommand_trace _ _ _⟩, ⟨_, rfl, writeCommand_trace _ _ _⟩,
    ⟨_, rfl, writeCommand_trace _ _ _⟩, ⟨_, rfl, writeCommand_trace _ _ _⟩⟩

/-- A command from idle lines is its frame and no more. -/
theorem exec_of_linesIdle (i : Instr) {s : State} (h : linesIdle s = true) :
    exec i s = .next (afterFrame (encode s.cfg i) s) := by
  rw [exec_sends, writeCommand_of_linesIdle _ _ h, frameWord_eta]

/-- Settles O15: the command is its frame, and the frame's effect is the state written out. -/
theorem commandFromIdleLinesHasExactlyItsFrame : Obligations.CommandFromIdleLinesHasExactlyItsFrame :=
  fun i _ h => exec_of_linesIdle i h

/-! The display registers after a frame. -/

theorem reg_afterFrame_same (w : FrameWord) (s : State) : (afterFrame w s).rx.reg (wordAddr w) = wordValue w :=
  Rx.reg_write_same s.rx (wordAddr w) (wordValue w)

theorem reg_afterFrame_other {w : FrameWord} {a : Byte} (h : a ≠ wordAddr w) (s : State) :
    (afterFrame w s).rx.reg a = s.rx.reg a :=
  Rx.reg_write_other s.rx (wordAddr w) a (wordValue w) h

/-- Settles O16: a command is its frame's primitives, none of which touches these fields; from idle lines the frame
writes the one register its word names. -/
theorem commandsChangeOnlyTheLinkAndOneRegister : Obligations.CommandsChangeOnlyTheLinkAndOneRegister := by
  intro i s t h
  have hreg : linesIdle s = true →
      t.rx.reg (wordAddr (encode s.cfg i)) = wordValue (encode s.cfg i) ∧
        ∀ a, a ≠ wordAddr (encode s.cfg i) → t.rx.reg a = s.rx.reg a := by
    intro hidle
    rw [exec_of_linesIdle i hidle] at h
    cases h
    exact ⟨reg_afterFrame_same _ s, fun a ha => reg_afterFrame_other ha s⟩
  rw [exec_sends, writeCommand_eq_runPrims] at h
  obtain rfl := Host.Outcome.next.inj h
  simp only [runPrims_phase, runPrims_cp, runPrims_rest, runPrims_acc, runPrims_n, runPrims_sample, runPrims_avg,
    runPrims_vccScaled, runPrims_round, runPrims_reading, runPrims_dig, runPrims_dp, runPrims_adcEnabled,
    runPrims_adcSel, runPrims_adcBusy, runPrims_adcDone, runPrims_adcResult, runPrims_sensorConfigured,
    runPrims_sensorPending, runPrims_fault, runPrims_cfg, runPrims_script, runPrims_resume, runPrims_turns,
    runPrims_readings, runPrims_draws, true_and]
  exact hreg

theorem trace_afterFrame (w : FrameWord) (s : State) :
    (afterFrame w s).trace = s.trace ++ frameEvents s.cfg.tLink w := by
  simp [State.trace, afterFrame]

/-- Settles O17: after the first frame the lines are idle again, so the second is the same frame, and writes the same
value to the same register. -/
theorem sameCommandTwiceSendsTheSameFrame : Obligations.SameCommandTwiceSendsTheSameFrame := by
  intro i s t u hidle ht hu
  rw [exec_of_linesIdle i hidle] at ht
  cases ht
  have hagain := linesIdle_afterFrame (encode s.cfg i) s
  rw [exec_of_linesIdle i hagain] at hu
  cases hu
  refine ⟨hagain, trace_afterFrame _ s, trace_afterFrame _ (afterFrame (encode s.cfg i) s), fun a => ?_⟩
  by_cases ha : a = wordAddr (encode s.cfg i)
  · rw [ha, reg_afterFrame_same]
    exact reg_afterFrame_same (encode s.cfg i) _
  · exact reg_afterFrame_other ha _

end Sys2Proof.Machine

/-! Turns: the controller's, whole or one primitive at a time (spec/10_state.md R22), a loaded program's calls
(spec/30_encoding.md R91), the ADC's and a reset. -/

namespace Sys2Proof.Machine

theorem step_run {s : State} {ts : List Turn} (ht : s.turns = .run :: ts) :
    step s = controller true { s with turns := ts } := by
  simp only [step, takeTurn, ht, runTurn]

theorem step_prim {s : State} {ts : List Turn} (ht : s.turns = .prim :: ts) :
    step s = controller false { s with turns := ts } := by
  simp only [step, takeTurn, ht, runTurn]

theorem step_adc {s : State} {code : Nat} {ts : List Turn} (ht : s.turns = .adc code :: ts) :
    step s = .next (adcComplete code { s with turns := ts }) := by
  simp only [step, takeTurn, ht, runTurn]

/-- With no operation in progress a listed turn runs the controller's plan. -/
theorem step_run_plan {s : State} {ts : List Turn} (ht : s.turns = .run :: ts) (hrun : s.phase ≠ .faulted)
    (hrest : s.rest = []) : step s = runPlan true (plan { s with turns := ts }) := by
  rw [step_run ht, controller_plan (s := { s with turns := ts }) hrun hrest]

/-! A loaded program's calls. -/

/-- Outside a called operation the next call is made, a called operation's only at a boundary (log 12). -/
theorem plan_call {s : State} {c : Call} {cs : List Call} (hs : s.script = c :: cs) (hc : cpCalled s.cp = false)
    (hvcc : ∀ n, c ≠ .vcc n) (htemp : c ≠ .temp) : plan s = callPlan c { s with script := cs } := by
  have hready : readyCall s = some c := by
    simp only [readyCall, hs, hc]
    cases c with
    | vcc n => exact absurd rfl (hvcc n)
    | temp => exact absurd rfl htemp
    | _ => rfl
  rw [plan_ready hready, hs, List.tail_cons]

theorem step_call {s : State} {c : Call} {cs : List Call} {ts : List Turn} (hrun : s.phase ≠ .faulted)
    (hrest : s.rest = []) (hc : cpCalled s.cp = false) (hs : s.script = c :: cs) (ht : s.turns = .run :: ts)
    (hvcc : ∀ n, c ≠ .vcc n) (htemp : c ≠ .temp) :
    step s = runPlan true (callPlan c { s with script := cs, turns := ts }) := by
  rw [step_run_plan ht hrun hrest, plan_call (s := { s with turns := ts }) hs hc hvcc htemp]

theorem sendWhole_of_decode {w : FrameWord} {i : Instr} {s : State} (h : decode s.cfg w = some i) :
    sendWhole w s = exec i s := by
  simp only [sendWhole, h]

/-- A frame's plan moves the control point and the loaded program, no more. -/
theorem plan_frame {s t : State} {w : FrameWord} (h : plan s = .frame w t) :
    t = { s with cp := t.cp, script := t.script } := by
  unfold plan at h
  split at h
  · rw [callPlan_frame h]
  · rw [cpPlan_frame h]

/-- Settles O18: the turn runs the plan, whose frame is sent as the meaning of the command it decodes to. -/
theorem stepRunsTheDecodedCommand : Obligations.StepRunsTheDecodedCommand := by
  intro s u t w i hturn hrun hrest hplan hdecode
  refine ⟨?_, plan_frame hplan⟩
  calc step s = controller true u := by rw [step, hturn]; rfl
    _ = sendWhole w t := by rw [controller_plan hrun hrest, hplan]; rfl
    _ = exec i t := sendWhole_of_decode hdecode

/-- Settles O19: withFetchWord puts the word before the loaded program, outside any called operation, so that it is
the call the next turn makes. -/
theorem loadedWordRunsNext : Obligations.LoadedWordRunsNext := by
  intro s nbits w i hok hrun hdecode
  have hcall := step_call (s := loadWord (tableWord nbits w) s) hrun rfl (homeCp_not_called hok) rfl rfl nofun nofun
  rw [State.withFetchWord, hcall, callPlan, runPlan, if_pos rfl, frameWord_eta]
  exact sendWhole_of_decode hdecode

/-- Settles O20: a WR's plan is its frame, whatever the word decodes to. -/
theorem rawFrameOfAnyAddressIsSent : Obligations.RawFrameOfAnyAddressIsSent := by
  intro s a v cs ts hrun hrest hc hs ht
  rw [step_call hrun hrest hc hs ht nofun nofun, callPlan, runPlan, if_pos rfl, sendWhole_eq, wordAddr_frameWord,
    wordValue_frameWord]

theorem posOfNat_of_lt {p : Nat} (h : p < 4) : ∃ q, posOfNat p = some q := by
  interval_cases p <;> exact ⟨_, rfl⟩

theorem posOfNat_of_ge {p : Nat} (h : 4 ≤ p) : posOfNat p = none := by
  obtain ⟨q, rfl⟩ := Nat.exists_eq_add_of_le' h
  rfl

/-- Settles O21: the position's number chooses between the refusal and a frame, which always completes. -/
theorem positionOutsideZeroToThreeIsRefused : Obligations.PositionOutsideZeroToThreeIsRefused := by
  intro s p v dp cs ts hrun hrest hc hs ht
  have hstep := step_call hrun hrest hc hs ht nofun nofun
  refine ⟨fun hp => ?_, fun hp => ?_⟩
  · simp only [callPlan, posOfNat_of_ge hp] at hstep
    exact hstep
  · obtain ⟨q, hq⟩ := posOfNat_of_lt hp
    simp only [callPlan, hq, runPlan, if_true, sendWhole_eq] at hstep
    exact ⟨_, hstep⟩

/-! One primitive at a time. -/

/-- The operation in progress, one primitive a step, whatever turns come after it. -/
theorem run_rest_settled {s : State} (ts : List Turn) (hrun : s.phase ≠ .faulted) :
    runSteps s.rest.length { s with turns := List.replicate s.rest.length .prim ++ ts } =
      .next { settled s with turns := ts } := by
  rw [run_rest s.rest s ts hrun rfl, settled_eq]

/-- The same with no turns listed and no conversion in flight. -/
theorem run_rest_settled_unlisted {s : State} (hrun : s.phase ≠ .faulted) (hturns : s.turns = [])
    (hbusy : s.adcBusy = false) : runSteps s.rest.length s = .next (settled s) := by
  rw [run_rest_unlisted s.rest s hrun rfl hturns hbusy, settled_eq]

/-- A frame's first primitive leaves the other hundred. -/
theorem length_rest_perform_frame (w : FrameWord) (s : State) :
    (perform false (framePrims w) s).rest.length = 100 := rfl

theorem settled_perform_frame (w : FrameWord) {s : State} (hrest : s.rest = []) :
    settled (perform false (framePrims w) s) = writeCommand (wordAddr w) (wordValue w) s := by
  rw [settled_perform false (ps := framePrims w) nofun, rest_nil_update s hrest, writeCommand_eq_runPrims]

theorem perform_turns_update (whole : Bool) (ps : List Prim) (ts : List Turn) (s : State) :
    perform whole ps { s with turns := ts } = { perform whole ps s with turns := ts } := by
  cases whole with
  | true => exact runPrims_turns_update ps ts { s with rest := [] }
  | false =>
    cases ps with
    | nil => rfl
    | cons p ps => exact applyPrim_turns_update p { s with rest := ps } ts

theorem writeCommand_turns_update (w : FrameWord) (ts : List Turn) (s : State) :
    writeCommand (wordAddr w) (wordValue w) { s with turns := ts } =
      { writeCommand (wordAddr w) (wordValue w) s with turns := ts } := by
  rw [writeCommand_eq_runPrims, runPrims_turns_update, writeCommand_eq_runPrims]

theorem fetch_eq_some {s : State} {w : FrameWord} (h : fetch s = some w) : ∃ u, plan s = .frame w u := by
  unfold fetch at h
  split at h
  · rename_i w' u hp
    cases h
    exact ⟨u, hp⟩
  · cases h

section
variable {s u : State} {w : FrameWord} (hrun : s.phase ≠ .faulted) (hrest : s.rest = [])
  (hplan : plan s = .frame w u)
include hrun hrest hplan

/-- A frame sent whole, whatever turns come after it. -/
theorem step_run_frame (ts : List Turn) :
    step { s with turns := .run :: ts } =
      .next { writeCommand (wordAddr w) (wordValue w) u with turns := ts } := by
  rw [step_run_plan (s := { s with turns := .run :: ts }) rfl hrun hrest, plan_turns_update ts hplan, runPlan,
    if_pos rfl, sendWhole_eq, writeCommand_turns_update]

/-- The first primitive of a frame. -/
theorem controller_prim_frame : controller false s = .next (perform false (framePrims w) u) := by
  rw [controller_plan hrun hrest, hplan]
  rfl

theorem step_prim_frame (ts : List Turn) :
    step { s with turns := .prim :: ts } = .next { perform false (framePrims w) u with turns := ts } := by
  rw [step_prim (s := { s with turns := .prim :: ts }) rfl, ← perform_turns_update]
  exact controller_prim_frame (s := { s with turns := ts }) hrun hrest (plan_turns_update ts hplan)

/-- A frame's plan is no fault and leaves nothing else in progress. -/
theorem plan_frame_begins : (perform false (framePrims w) u).phase ≠ .faulted ∧ u.rest = [] := by
  rw [plan_frame hplan]
  exact ⟨hrun, hrest⟩

theorem frame_by_listed_prims (ts : List Turn) :
    runSteps 101 { s with turns := List.replicate 101 .prim ++ ts } = step { s with turns := .run :: ts } := by
  obtain ⟨hurun, hurest⟩ := plan_frame_begins hrun hrest hplan
  have hothers := run_rest_settled ts hurun
  rw [length_rest_perform_frame, settled_perform_frame w hurest] at hothers
  rw [List.replicate_succ, List.cons_append, runSteps_succ 100 (step_prim_frame hrun hrest hplan _),
    step_run_frame hrun hrest hplan ts, hothers]

theorem frame_by_unlisted_prims (hturns : s.turns = []) (hbusy : s.adcBusy = false) :
    runSteps 101 s = step { s with turns := [.run] } := by
  obtain ⟨hurun, hurest⟩ := plan_frame_begins hrun hrest hplan
  have hfirst : step s = .next (perform false (framePrims w) u) := by
    rw [step, takeTurn_unlisted hturns hbusy]
    exact controller_prim_frame hrun hrest hplan
  have hu : u.turns = [] ∧ u.adcBusy = false := by rw [plan_frame hplan]; exact ⟨hturns, hbusy⟩
  have hothers := run_rest_settled_unlisted hurun hu.1 hu.2
  rw [length_rest_perform_frame, settled_perform_frame w hurest] at hothers
  have hkeep : (writeCommand (wordAddr w) (wordValue w) u).turns = [] :=
    (writeCommand_keeps State.turns applyPrim_turns _ _ u).trans hu.1
  rw [runSteps_succ 100 hfirst, hothers, step_run_frame hrun hrest hplan [], ← hkeep]

end

/-! One event a step at most. -/

/-- The second state's trace goes on from the first's by one event at most. -/
def AddsAtMostOne (s t : State) : Prop := ∃ es, t.trace = s.trace ++ es ∧ es.length ≤ 1

theorem AddsAtMostOne.of_events_eq {s t : State} (h : t.events = s.events) : AddsAtMostOne s t :=
  ⟨[], by rw [State.trace, h, List.append_nil]; rfl, Nat.zero_le 1⟩

theorem AddsAtMostOne.of_events_cons {s t : State} {e : Event} (h : t.events = e :: s.events) : AddsAtMostOne s t :=
  ⟨[e], by rw [State.trace, h, List.reverse_cons]; rfl, le_refl 1⟩

theorem applyPrim_addsAtMostOne (s : State) (p : Prim) : AddsAtMostOne s (applyPrim s p) := by
  cases p with
  | load w => exact .of_events_eq rfl
  | line sig lvl => exact .of_events_cons (setLine_events s sig lvl)
  | dataBit k => exact .of_events_cons (setLine_events { s with bit := k } .din _)
  | linkDelay => exact .of_events_cons (linkDelay_events s)

theorem plan_addsAtMostOne {s u : State} (h : planState (plan s) = some u) : AddsAtMostOne s u := by
  obtain ⟨-, -, hevents | ⟨e, -, hevents⟩⟩ := plan_events h
  · exact .of_events_eq hevents
  · exact .of_events_cons hevents

/-- A frame's first primitive adds no event, and a plan of bare primitives none before them. -/
theorem controller_prim_addsAtMostOne {s t : State} (h : controller false s = .next t) : AddsAtMostOne s t := by
  obtain ⟨-, ⟨p, ps, -, rfl⟩ | ⟨-, ⟨w, u, hp, ⟨hw, -⟩ | ⟨-, rfl⟩⟩ | ⟨ps, u, hp, rfl⟩ | hp⟩⟩ := controller_next h
  · exact applyPrim_addsAtMostOne { s with rest := ps } p
  · cases hw
  · exact plan_addsAtMostOne (u := u) (by rw [hp]; rfl)
  · obtain ⟨-, rfl, rfl⟩ | ⟨-, rfl, rfl⟩ | ⟨-, rfl, rfl⟩ := plan_prims hp
    all_goals exact .of_events_cons (setLine_events _ _ _)
  · exact plan_addsAtMostOne (by rw [hp]; rfl)

theorem unlisted_addsAtMostOne {s t : State} (hturns : s.turns = []) (h : step s = .next t) : AddsAtMostOne s t := by
  have hevents : (takeTurn s).2.trace = s.trace := takeTurn_keeps State.trace (fun _ _ _ => rfl) s
  have hmove : AddsAtMostOne (takeTurn s).2 t := by
    obtain hprim | ⟨c, hadc⟩ := takeTurn_unlisted_cases hturns
    · rw [step, hprim] at h
      exact controller_prim_addsAtMostOne h
    · rw [step, hadc] at h
      cases h
      exact .of_events_eq (adcComplete_keeps State.events (fun _ _ => rfl) c _)
  rwa [AddsAtMostOne, hevents] at hmove

/-- Settles O23: after a frame's first primitive the other hundred steps settle it, and settled it is the frame sent
whole. -/
theorem onePrimitiveAtATimeIsTheWholeFrame : Obligations.OnePrimitiveAtATimeIsTheWholeFrame := by
  intro s w ts
  refine ⟨fun hrun hrest hfetch => ?_, fun hrun hrest hfetch hturns hbusy => ?_, fun t => unlisted_addsAtMostOne⟩
  · obtain ⟨u, hplan⟩ := fetch_eq_some hfetch
    exact frame_by_listed_prims hrun hrest hplan ts
  · obtain ⟨u, hplan⟩ := fetch_eq_some hfetch
    exact frame_by_unlisted_prims hrun hrest hplan hturns hbusy

end Sys2Proof.Machine

/-! The ADC port and the sampler, statement by statement (spec/42_voltage_sampler.md R150 to R156). -/

namespace Sys2Proof.Machine

/-- Settles O27: each writes its one field and records its event. -/
theorem adcEnableAndSelectSetTheirState : Obligations.AdcEnableAndSelectSetTheirState := fun _ => ⟨rfl, rfl⟩

theorem step_adc_completes {s : State} {code : Nat} {ts : List Turn} (ht : s.turns = .adc code :: ts)
    (hbusy : s.adcBusy = true) (hcode : code ≤ s.cfg.maxCode) :
    step s = .next { s with turns := ts, adcResult := code, adcDone := true, adcBusy := false } := by
  rw [step_adc ht, adcComplete_of_busy code (s := { s with turns := ts }) hbusy]
  simp only [adcCode_of_le hcode]

/-- Settles O28: the ADC's turn is its completion, whose code is reduced to its width. -/
theorem adcCompletesOnlyAConversionInFlight : Obligations.AdcCompletesOnlyAConversionInFlight := by
  intro s code ts ht
  have hstep := step_adc ht
  refine ⟨step_adc_completes ht, fun hbusy => ?_, fun hbusy => ?_⟩
  · rw [hstep, adcComplete_of_busy code (s := { s with turns := ts }) hbusy]
    rfl
  · rw [hstep, adcComplete_of_not_busy code (s := { s with turns := ts }) hbusy]

/-- A statement of SampleAverageVcc that is one primitive or computation. -/
theorem step_sampler {s t : State} {st : SamplerStep} {n : Nat} {c : Caller} {ts : List Turn}
    (h : atStatement s = true) (ht : s.turns = .run :: ts) (hcp : s.cp = .sampler st n c)
    (hp : samplerPlan st n c { s with turns := ts } = .act t) : step s = .next t :=
  step_act h ht (by simpa only [cpPlan, hcp] using hp)

/-- AdcPoll with the flag clear. -/
theorem step_poll_unset {s : State} {n : Nat} {c : Caller} {ts : List Turn} (h : atStatement s = true)
    (ht : s.turns = .run :: ts) (hcp : s.cp = .sampler .poll n c) (hd : s.adcDone = false) :
    step s = .next { s with turns := ts, events := .adcPoll false :: s.events } :=
  step_act h ht (cpPlan_poll_clear (s := { s with turns := ts }) hcp hd)

/-- AdcPoll with the flag set. -/
theorem step_poll_set {s : State} {n : Nat} {c : Caller} {ts : List Turn} (h : atStatement s = true)
    (ht : s.turns = .run :: ts) (hcp : s.cp = .sampler .poll n c) (hd : s.adcDone = true) :
    step s = .next { s with turns := ts, events := .adcPoll true :: s.events, cp := .sampler .clearDone n c } :=
  step_sampler h ht hcp (by simp only [samplerPlan, adcPoll, record, hd, if_true])

/-- Settles O30: each is the plan of its control point, the poll's by the flag. -/
theorem conversionStartsPollsClearsAndReads : Obligations.ConversionStartsPollsClearsAndReads := by
  intro s n c ts h ht
  exact ⟨fun hcp => step_sampler h ht hcp rfl, step_poll_unset h ht, step_poll_set h ht,
    fun hcp => step_sampler h ht hcp rfl, fun hcp => step_sampler h ht hcp rfl⟩

/-- The wait after a sample, and the loop's test (R154). -/
theorem step_settle {s : State} {n : Nat} {c : Caller} {ts : List Turn} (h : atStatement s = true)
    (ht : s.turns = .run :: ts) (hcp : s.cp = .sampler .settle n c) :
    step s = .next
      { s with
        turns := ts
        n := if s.n < n then s.n + 1 else s.n
        cp := .sampler (if s.n < n then .start else .average) n c
        events := .delay s.cfg.tSample :: s.events } := by
  refine step_sampler h ht hcp ?_
  by_cases hn : s.n < n
  · simp only [samplerPlan, hn, if_true]
    rfl
  · simp only [samplerPlan, hn, if_false]
    rfl

/-- AdcConvertOne with the ADC completing after one unsuccessful poll (R153). -/
theorem runSteps_convert {s : State} {n : Nat} {c : Caller} {code : Nat} {ts : List Turn} (k : Nat)
    (h : atStatement s = true)
    (ht : s.turns = .run :: .run :: .adc code :: .run :: .run :: .run :: ts) (hcp : s.cp = .sampler .start n c)
    (hd : s.adcDone = false) (hcode : code ≤ s.cfg.maxCode) :
    runSteps (k + 6) s =
      runSteps k
        { s with
          turns := ts
          adcBusy := false
          adcDone := false
          adcResult := code
          sample := code
          cp := .sampler .accumulate n c
          events := [.adcRead code, .adcClearDone, .adcPoll true, .adcPoll false, .adcStart] ++ s.events } := by
  refine Eq.trans (runSteps_succ (k + 5) (step_sampler h ht hcp rfl)) ?_
  refine Eq.trans (runSteps_succ (k + 4) (step_poll_unset h rfl rfl hd)) ?_
  refine Eq.trans (runSteps_succ (k + 3) (step_adc_completes rfl rfl hcode)) ?_
  refine Eq.trans (runSteps_succ (k + 2) (step_poll_set h rfl rfl rfl)) ?_
  refine Eq.trans (runSteps_succ (k + 1) (step_sampler h rfl rfl rfl)) ?_
  exact runSteps_succ k (step_sampler h rfl rfl rfl)

/-- Settles O32: one conversion, and the loop's statements after it. -/
theorem oneSampleIsAddedToTheSum : Obligations.OneSampleIsAddedToTheSum := by
  intro s n c code h hcp hd hcode
  refine Eq.trans (runSteps_convert 2 h rfl hcp hd hcode) ?_
  refine Eq.trans (runSteps_succ 1 (step_sampler h rfl rfl rfl)) ?_
  exact runSteps_succ 0 (step_settle h rfl rfl)

/-- Settles O22: the count decides between the refusal and the selection; the numbers for ten bits are arithmetic. -/
theorem sampleCountOutsideItsRangeIsRefused : Obligations.SampleCountOutsideItsRangeIsRefused := by
  intro s n c ts h hcp ht
  refine ⟨fun hbits => ?_, fun hn => ?_, fun hn => ?_⟩
  · simp [Config.maxSamples, Config.maxCode, hbits]
  · have hout : ¬ (1 ≤ n ∧ n ≤ s.cfg.maxSamples) := by omega
    rw [step_atStatement h ht]
    simp only [cpPlan, hcp, samplerPlan, hout, if_false]
  · exact step_sampler h ht hcp (if_pos hn)

/-- Settles O33: the quotients fit the registers, so nothing but the truncation is lost; an average of 0 is the
fault. -/
theorem averageAndScaleTruncateOrFault : Obligations.AverageAndScaleTruncateOrFault := by
  intro s n c ts h ht
  refine ⟨fun hcp _ => ⟨_, step_sampler h ht hcp rfl, ?_, rfl⟩, fun hcp ha => ?_, fun hcp ha => ?_⟩
  · show (BitVec.ofNat 32 (s.acc.toNat / n)).toNat = s.acc.toNat / n
    rw [BitVec.toNat_ofNat]
    exact Nat.mod_eq_of_lt ((Nat.div_le_self _ _).trans_lt s.acc.isLt)
  · have hplan : samplerPlan .scale n c { s with turns := ts } =
        .act { s with turns := ts, vccScaled := s.cfg.kCal / s.avg, cp := .formatVoltage c } := by
      simp only [samplerPlan, scaleVcc, ha, if_false]
    exact ⟨_, step_sampler h ht hcp hplan, BitVec.toNat_udiv .., rfl⟩
  · refine step_sampler h ht hcp ?_
    simp only [samplerPlan, scaleVcc, ha, if_true]
    rfl

end Sys2Proof.Machine

/-! The formatters' digits (spec/42_voltage_sampler.md R157, spec/43_temperature_formatter.md R180 to R187). -/

namespace Sys2Proof.Machine

@[simp] theorem toNat_ofNat_digit (x : Nat) : (BitVec.ofNat 8 (x % 10)).toNat = x % 10 := by
  rw [BitVec.toNat_ofNat]
  omega

theorem topDigit_mod10_toNat (q : Nat) : (topDigit .mod10 q).toNat = q % 10 := toNat_ofNat_digit q

theorem topDigit_raw_toNat (q : Nat) : (topDigit .raw q).toNat = q % 256 := by
  rw [topDigit, BitVec.toNat_ofNat]
  omega

/-- A top digit below ten is the same in both modes. -/
theorem topDigit_of_lt (m : TopDigitMode) {q : Nat} (h : q < 10) : (topDigit m q).toNat = q := by
  cases m with
  | mod10 => rw [topDigit_mod10_toNat]; omega
  | raw => rw [topDigit_raw_toNat]; omega

/-- Settles O34: each digit is the value's, the first reduced by the mode. -/
theorem voltageDigitsAreTheValuesDigits : Obligations.VoltageDigitsAreTheValuesDigits := by
  intro s
  have h1 : (voltageDigits s.cfg.topDigit s.vccScaled).p1.toNat = s.vccScaled.toNat / 100 % 10 := toNat_ofNat_digit _
  have h2 : (voltageDigits s.cfg.topDigit s.vccScaled).p2.toNat = s.vccScaled.toNat / 10 % 10 := toNat_ofNat_digit _
  have h3 : (voltageDigits s.cfg.topDigit s.vccScaled).p3.toNat = s.vccScaled.toNat % 10 := toNat_ofNat_digit _
  simp only [formatVoltage, h1, h2, h3]
  refine ⟨by omega, by omega, by omega, by omega, fun hm => ?_, fun hm => ?_, rfl⟩
  · rw [voltageDigits, hm, topDigit_mod10_toNat]
  · rw [voltageDigits, hm, topDigit_raw_toNat]

/-! The temperature's layouts. -/

theorem two_pow_cast (k : Nat) : (2 : Int) ^ k = ((2 ^ k : Nat) : Int) := by push_cast; rfl

/-- A non-negative reading below some degrees has an integer part below them. -/
theorem tempInteger_lt {k : Nat} {r : Int} {x : Nat} (h0 : 0 ≤ r) (h : r < x * 2 ^ k) : tempInteger k r < x := by
  rw [two_pow_cast] at h
  rw [tempInteger_eq_div, Nat.div_lt_iff_lt_mul (Nat.two_pow_pos k)]
  have hcast : ((x * 2 ^ k : Nat) : Int) = x * ((2 ^ k : Nat) : Int) := Int.natCast_mul x (2 ^ k)
  omega

theorem tempInteger_ge {k : Nat} {r : Int} {x : Nat} (h : x * 2 ^ k ≤ r) : x ≤ tempInteger k r := by
  rw [two_pow_cast] at h
  rw [tempInteger_eq_div, Nat.le_div_iff_mul_le (Nat.two_pow_pos k)]
  have hcast : ((x * 2 ^ k : Nat) : Int) = x * ((2 ^ k : Nat) : Int) := Int.natCast_mul x (2 ^ k)
  omega

theorem formatTemperature_negative (k : Nat) (m : TopDigitMode) {r : Int} (h : r < 0) :
    formatTemperature k m r = .unsupported := by
  rw [formatTemperature, if_pos h]

/-- Settles O35: the integer part and the hundredths are both below 100, so that two digits hold each. -/
theorem temperatureBelowHundredLayout : Obligations.TemperatureBelowHundredLayout := by
  intro k m r
  refine ⟨formatTemperature_negative k m, fun h0 hlt => ?_⟩
  have hint : tempInteger k r < 100 := tempInteger_lt h0 (by exact_mod_cast hlt)
  have hdec : tempDecimals k r 100 < 100 := tempDecimals_lt k r (by decide)
  refine ⟨tempDigitsLow k r, formatTemperature_low m h0 hint, ?_⟩
  have hp0 : (tempDigitsLow k r).p0.toNat = tempInteger k r / 10 := by
    rw [tempDigitsLow, BitVec.toNat_ofNat]
    omega
  have hp1 : (tempDigitsLow k r).p1.toNat = tempInteger k r % 10 := toNat_ofNat_digit _
  have hp2 : (tempDigitsLow k r).p2.toNat = tempDecimals k r 100 / 10 := by
    rw [tempDigitsLow, BitVec.toNat_ofNat]
    omega
  have hp3 : (tempDigitsLow k r).p3.toNat = tempDecimals k r 100 % 10 := toNat_ofNat_digit _
  rw [← tempInteger_eq_div]
  exact ⟨by omega, by omega, by omega, by omega, by omega, tempDigitsLow_fraction k r⟩

/-- Settles O36: tens and ones of the integer part are digits, the tenths are below ten, and the hundreds are reduced
by the mode. -/
theorem temperatureFromHundredLayout : Obligations.TemperatureFromHundredLayout := by
  intro k m r hle
  have hint : 100 ≤ tempInteger k r := tempInteger_ge (by exact_mod_cast hle)
  have h0 : 0 ≤ r := le_trans (by positivity) hle
  have hdec : tempDecimals k r 10 < 10 := tempDecimals_lt k r (by decide)
  refine ⟨tempDigitsHigh k m r, formatTemperature_high m h0 hint, ?_⟩
  have hp1 : (tempDigitsHigh k m r).p1.toNat = tempInteger k r / 10 % 10 := toNat_ofNat_digit _
  have hp2 : (tempDigitsHigh k m r).p2.toNat = tempInteger k r % 10 := toNat_ofNat_digit _
  have hp3 : (tempDigitsHigh k m r).p3.toNat = tempDecimals k r 10 := tempDigitsHigh_fraction k m r
  rw [← tempInteger_eq_div]
  refine ⟨by omega, by omega, by omega, by omega, hp3, fun hm => ?_, fun hm => ?_, fun hlt => ?_⟩
  · rw [tempDigitsHigh, hm, topDigit_mod10_toNat]
  · rw [tempDigitsHigh, hm, topDigit_raw_toNat]
  · have hsmall : tempInteger k r < 1000 := tempInteger_lt h0 (by exact_mod_cast hlt)
    exact topDigit_of_lt m (by omega)

/-! The sensor port (spec/44_controller_fsm.md R206). -/

theorem sensorAnswer_of_listed {s : State} {r : Int} {rs : List Int} (h : s.readings = r :: rs)
    (hfits : readingFits s.cfg r = true) : sensorAnswer s = r := by
  rw [sensorAnswer, h]
  exact sensorValue_of_fits hfits

theorem sensorAnswer_of_free {s : State} (h : s.readings = []) :
    sensorAnswer s = sensorValue s.cfg (Config.freeReading s.draws) := by
  rw [sensorAnswer, h]

theorem readingFits_sensorAnswer (s : State) : readingFits s.cfg (sensorAnswer s) = true :=
  readingFits_sensorValue _ _

theorem sensorRead_of_listed {s : State} {r : Int} {rs : List Int} (h : s.readings = r :: rs)
    (hfits : readingFits s.cfg r = true) :
    sensorRead s =
      { s with
        reading := r
        sensorPending := false
        readings := rs
        draws := s.draws + 1
        events := .sensorRead r :: s.events } := by
  rw [sensorRead, sensorAnswer_of_listed h hfits, h]
  rfl

/-- Settles O38: a listed reading that fits is taken as it is, and every answer fits. -/
theorem sensorCallsSetTheirState : Obligations.SensorCallsSetTheirState := by
  intro s r rs
  exact ⟨rfl, rfl, sensorRead_of_listed, ⟨sensorAnswer s, readingFits_sensorAnswer s, rfl, rfl, record_trace _ _⟩,
    sensorAnswer_of_free⟩

/-! One temperature iteration (spec/44_controller_fsm.md R207). -/

/-- A statement of the temperature iteration that is one primitive or computation. -/
theorem step_temp {s t : State} {st : TempStep} {called : Bool} {ts : List Turn} (h : atStatement s = true)
    (ht : s.turns = .run :: ts) (hcp : s.cp = .temp st called)
    (hp : tempPlan st called { s with turns := ts } = .act t) : step s = .next t :=
  step_act h ht (by simpa only [cpPlan, hcp] using hp)

/-- T3 with a listed reading. -/
theorem step_temp_read {s : State} {called : Bool} {r : Int} {rs : List Int} {ts : List Turn}
    (h : atStatement s = true) (ht : s.turns = .run :: ts) (hcp : s.cp = .temp .read called)
    (hr : s.readings = r :: rs) (hfits : readingFits s.cfg r = true) :
    step s = .next
      { s with
        turns := ts
        readings := rs
        draws := s.draws + 1
        reading := r
        sensorPending := false
        cp := .temp .format called
        events := .sensorRead r :: s.events } :=
  step_temp h ht hcp (by rw [tempPlan, sensorRead_of_listed (s := { s with turns := ts }) hr hfits])

/-- T1 to T3 with a listed reading. -/
theorem runSteps_temp_read {s : State} {r : Int} {rs : List Int} {ts : List Turn} (k : Nat)
    (h : atStatement s = true) (ht : s.turns = .run :: .run :: .run :: ts) (hcp : s.cp = .temp .start false)
    (hr : s.readings = r :: rs) (hfits : readingFits s.cfg r = true) :
    runSteps (k + 3) s =
      runSteps k
        { s with
          turns := ts
          readings := rs
          draws := s.draws + 1
          reading := r
          sensorPending := false
          cp := .temp .format false
          events := [.sensorRead r, .delay s.cfg.tConv, .sensorStart] ++ s.events } := by
  refine Eq.trans (runSteps_succ (k + 2) (step_temp h ht hcp rfl)) ?_
  refine Eq.trans (runSteps_succ (k + 1) (step_temp h rfl rfl rfl)) ?_
  exact runSteps_succ k (step_temp_read h rfl rfl hr hfits)

/-- T4's formatting of a reading that can be shown. -/
theorem step_temp_format {s : State} {called : Bool} {d : Quad Byte} {p : Quad Bool} {ts : List Turn}
    (h : atStatement s = true) (ht : s.turns = .run :: ts) (hcp : s.cp = .temp .format called)
    (hf : formatTemperature s.cfg.fracBits s.cfg.topDigit s.reading = .ok d p) :
    step s = .next { s with turns := ts, dig := d, dp := p, cp := .temp (.show .p0) called } :=
  step_temp h ht hcp (by simp only [tempPlan, hf])

/-- T4 skips the display of any other. -/
theorem step_temp_unsupported {s : State} {called : Bool} {ts : List Turn} (h : atStatement s = true)
    (ht : s.turns = .run :: ts) (hcp : s.cp = .temp .format called)
    (hf : formatTemperature s.cfg.fracBits s.cfg.topDigit s.reading = .unsupported) :
    step s = .next { s with turns := ts, cp := .temp .again called } :=
  step_temp h ht hcp (by simp only [tempPlan, hf])

/-- The last digit of the temperature display. -/
theorem step_temp_show_last {s : State} {called : Bool} {ts : List Turn} (h : atStatement s = true)
    (hl : linesIdle s = true) (hcp : s.cp = .temp (.show .p3) called) (ht : s.turns = .run :: ts) :
    step s = .next
      { afterFrame (digitWord .p3 s.dig.p3 s.dp.p3) s with cp := .temp .again called, turns := ts } :=
  step_frame (t := { s with cp := .temp .again called, turns := ts }) h hl ht (by simp only [cpPlan, hcp]; rfl)

/-- T4's four frames. -/
theorem runSteps_temp_display {s : State} {called : Bool} {ts : List Turn} (k : Nat) (h : atStatement s = true)
    (hl : linesIdle s = true) (ht : s.turns = .run :: .run :: .run :: .run :: ts)
    (hcp : s.cp = .temp (.show .p0) called) :
    runSteps (k + 4) s = runSteps k { afterDigits s.dig s.dp s with cp := .temp .again called, turns := ts } :=
  (runSteps_temp_show h hl hcp ht (k + 1)).trans (runSteps_succ k (step_temp_show_last h rfl rfl rfl))

/-- T5 of the fixed program. -/
theorem step_temp_again {s : State} {ts : List Turn} (h : atStatement s = true) (ht : s.turns = .run :: ts)
    (hcp : s.cp = .temp .again false) : step s = .next { s with cp := .temp .start false, turns := ts } :=
  step_temp h ht hcp rfl

/-- Settles O40: a negative reading is Unsupported, so that the iteration goes from T4 to T5 at once. -/
theorem negativeReadingSendsNoFrame : Obligations.NegativeReadingSendsNoFrame := by
  intro s r rs h hcp hr hfits hneg
  refine Eq.trans (runSteps_temp_read 2 h rfl hcp hr hfits) ?_
  have hformat := formatTemperature_negative s.cfg.fracBits s.cfg.topDigit hneg
  refine Eq.trans (runSteps_succ 1 (step_temp_unsupported h rfl rfl hformat)) ?_
  refine Eq.trans (runSteps_succ 0 (step_temp_again h rfl rfl)) ?_
  rw [runSteps_zero, ← hcp]
  rfl

/-- Settles O39: the reading is taken at T3 and formatted, and T4's four frames show it. -/
theorem temperatureIterationShowsTheReading : Obligations.TemperatureIterationShowsTheReading := by
  intro s r rs d p h hl hcp hr hfits hformat
  refine Eq.trans (runSteps_temp_read 6 h rfl hcp hr hfits) ?_
  refine Eq.trans (runSteps_succ 5 (step_temp_format h rfl rfl hformat)) ?_
  refine Eq.trans (runSteps_temp_display 1 h hl rfl rfl) ?_
  refine Eq.trans (runSteps_succ 0 (step_temp_again h rfl rfl)) ?_
  rw [runSteps_zero, ← hcp]
  rfl

end Sys2Proof.Machine

/-! Init, the startups and a loaded SHOW (spec/44_controller_fsm.md R200 to R205, spec/30_encoding.md R92). -/

namespace Sys2Proof.Machine

/-- The state at a control point, with these turns next. -/
def placed (c : Cp) (ts : List Turn) (s : State) : State := { s with cp := c, turns := ts }

theorem withRuns_eq_placed (k : Nat) {s : State} {c : Cp} (h : s.cp = c) :
    withRuns k [] s = placed c (List.replicate k .run) s := by
  rw [withRuns, List.append_nil, placed, ← h]

/-! A statement of the fixed program, by what it does to the state beside the control point. -/

section
variable {c c' : Cp} {u : State} {ts : List Turn}

/-- One that is a primitive or computation. -/
theorem step_placed_act {f : State → State} (hp : ∀ s : State, s.cp = c → cpPlan s = .act { f s with cp := c' })
    (hf : f (placed c ts u) = placed c ts (f u)) (h : atStatement u = true) :
    step (placed c (.run :: ts) u) = .next (placed c' ts (f u)) := by
  have hplan : cpPlan (placed c ts u) = .act { f (placed c ts u) with cp := c' } := hp _ rfl
  rw [hf] at hplan
  exact step_act (s := placed c (.run :: ts) u) h rfl hplan

/-- The effect of a statement that sets one line. -/
def idleLine (sig : Sig) (lvl : Config → Bool) (u : State) : State := runPrims (idlePrims sig (lvl u.cfg)) u

theorem step_placed_idleLine {sig : Sig} {lvl : Config → Bool}
    (hp : ∀ s : State, s.cp = c → cpPlan s = .prims (idlePrims sig (lvl s.cfg)) { s with cp := c' })
    (h : atStatement u = true) :
    step (placed c (.run :: ts) u) = .next (placed c' ts (idleLine sig lvl u)) := by
  obtain ⟨-, hrest, -⟩ := atStatement_cases h
  have hplan : cpPlan (placed c ts u) = .prims (idlePrims sig (lvl u.cfg)) (placed c' ts u) := hp _ rfl
  have hwhole : perform true (idlePrims sig (lvl u.cfg)) (placed c' ts u) = placed c' ts (idleLine sig lvl u) := by
    simp only [perform, if_true, rest_nil_update (placed c' ts u) hrest]
    cases sig <;> rfl
  rw [step_atStatement (s := placed c (.run :: ts) u) h rfl]
  show (match cpPlan (placed c ts u) with
    | .frame w t => Host.Outcome.next (writeCommand (wordAddr w) (wordValue w) t)
    | .prims ps t => .next (perform true ps t)
    | .act t => .next t
    | .refuse r => .refused r) = _
  rw [hplan]
  exact congrArg Host.Outcome.next hwhole

/-- The effect of a statement that writes one control register. -/
def controlFrame (a v : Config → Byte) (u : State) : State := afterFrame (frameWord (a u.cfg) (v u.cfg)) u

@[simp] theorem controlFrame_cfg (a v : Config → Byte) (s : State) : (controlFrame a v s).cfg = s.cfg := rfl

theorem step_placed_controlFrame {a v : Config → Byte}
    (hp : ∀ s : State, s.cp = c → cpPlan s = .frame (frameWord (a s.cfg) (v s.cfg)) { s with cp := c' })
    (h : atStatement u = true) (hl : linesIdle u = true) :
    step (placed c (.run :: ts) u) = .next (placed c' ts (controlFrame a v u)) :=
  step_frame (s := placed c (.run :: ts) u) (t := placed c' ts u) h hl rfl (hp (placed c ts u) rfl)

end

/-! Init's statements (R200). -/

section
variable {s : State}

theorem cpPlan_i1 (h : s.cp = .i1) : cpPlan s = .act { configurePins s with cp := .i2 } := by
  simp only [cpPlan, h]
theorem cpPlan_i2 (h : s.cp = .i2) : cpPlan s = .prims (idlePrims .cs true) { s with cp := .i3 } := by
  simp only [cpPlan, h]
theorem cpPlan_i3 (h : s.cp = .i3) : cpPlan s = .prims (idlePrims .clk false) { s with cp := .i4 } := by
  simp only [cpPlan, h]
theorem cpPlan_i4 (h : s.cp = .i4) : cpPlan s = .prims (idlePrims .din s.cfg.dinIdle) { s with cp := .i5 } := by
  simp only [cpPlan, h]
theorem cpPlan_i5 (h : s.cp = .i5) : cpPlan s = .act { adcEnable s with cp := .i6 } := by
  simp only [cpPlan, h]
theorem cpPlan_i6 (h : s.cp = .i6) :
    cpPlan s = .frame (frameWord s.cfg.aShutdown s.cfg.vNormal) { s with cp := .i7 } := by
  simp only [cpPlan, h]
theorem cpPlan_i7 (h : s.cp = .i7) :
    cpPlan s = .frame (frameWord s.cfg.aTest s.cfg.vTestOff) { s with cp := .i8 } := by
  simp only [cpPlan, h]
theorem cpPlan_i8 (h : s.cp = .i8) :
    cpPlan s = .frame (frameWord s.cfg.aDecode s.cfg.vDecode) { s with cp := .i9 } := by
  simp only [cpPlan, h]
theorem cpPlan_i9 (h : s.cp = .i9) :
    cpPlan s = .frame (frameWord s.cfg.aIntensity s.cfg.vIntensity) { s with cp := .i10 } := by
  simp only [cpPlan, h]
theorem cpPlan_i10 (h : s.cp = .i10) :
    cpPlan s = .frame (frameWord s.cfg.aScanlimit s.cfg.vScanlimit) { s with cp := .i11 } := by
  simp only [cpPlan, h]
theorem cpPlan_i11 (h : s.cp = .i11) : cpPlan s = .act { sensorConfigure s with cp := .i12 } := by
  simp only [cpPlan, h]
theorem cpPlan_i12 (h : s.cp = .i12) : cpPlan s = .act (startup { s with phase := .calibratingVoltage }) := by
  simp only [cpPlan, h]

end

/-! Init as a whole. -/

/-- I1 to I5, but for the control point. -/
def initPorts (s : State) : State :=
  adcEnable
    (idleLine .din Config.dinIdle (idleLine .clk (fun _ => false) (idleLine .cs (fun _ => true) (configurePins s))))

/-- I6 to I10. -/
def initFrames (s : State) : State :=
  controlFrame Config.aScanlimit Config.vScanlimit
    (controlFrame Config.aIntensity Config.vIntensity
      (controlFrame Config.aDecode Config.vDecode
        (controlFrame Config.aTest Config.vTestOff (controlFrame Config.aShutdown Config.vNormal s))))

/-- I12, but for the control point. -/
def enterCalibrating (s : State) : State := { s with phase := .calibratingVoltage }

/-- The state Init ends in, but for the control point. -/
def initDone (s : State) : State :=
  enterCalibrating (sensorConfigure (initFrames (initPorts s)))

theorem configurePins_placed (c : Cp) (ts : List Turn) (s : State) :
    configurePins (placed c ts s) = placed c ts (configurePins s) := rfl
theorem adcEnable_placed (c : Cp) (ts : List Turn) (s : State) :
    adcEnable (placed c ts s) = placed c ts (adcEnable s) := rfl
theorem sensorConfigure_placed (c : Cp) (ts : List Turn) (s : State) :
    sensorConfigure (placed c ts s) = placed c ts (sensorConfigure s) := rfl

@[simp] theorem atStatement_configurePins (s : State) : atStatement (configurePins s) = atStatement s := rfl
@[simp] theorem atStatement_adcEnable (s : State) : atStatement (adcEnable s) = atStatement s := rfl
@[simp] theorem atStatement_sensorConfigure (s : State) : atStatement (sensorConfigure s) = atStatement s := rfl
@[simp] theorem atStatement_controlFrame (a v : Config → Byte) (s : State) :
    atStatement (controlFrame a v s) = atStatement s := rfl
@[simp] theorem atStatement_idleLine (sig : Sig) (lvl : Config → Bool) (s : State) :
    atStatement (idleLine sig lvl s) = atStatement s := by simp [atStatement, idleLine]
@[simp] theorem atStatement_initPorts (s : State) : atStatement (initPorts s) = atStatement s := by simp [initPorts]
@[simp] theorem atStatement_initFrames (s : State) : atStatement (initFrames s) = atStatement s := by simp [initFrames]

section
variable {s : State} (ts : List Turn) (k : Nat) (h : atStatement s = true)
include h

theorem runSteps_initPorts :
    runSteps (k + 5) (placed .i1 (.run :: .run :: .run :: .run :: .run :: ts) s) =
      runSteps k (placed .i6 ts (initPorts s)) := by
  refine Eq.trans (runSteps_succ (k + 4) (step_placed_act (f := configurePins) (fun _ => cpPlan_i1)
    (configurePins_placed ..) h)) ?_
  refine Eq.trans (runSteps_succ (k + 3) (step_placed_idleLine (lvl := fun _ => true) (fun _ => cpPlan_i2)
    (by simpa using h))) ?_
  refine Eq.trans (runSteps_succ (k + 2) (step_placed_idleLine (lvl := fun _ => false) (fun _ => cpPlan_i3)
    (by simpa using h))) ?_
  refine Eq.trans (runSteps_succ (k + 1) (step_placed_idleLine (lvl := Config.dinIdle) (fun _ => cpPlan_i4)
    (by simpa using h))) ?_
  exact runSteps_succ k (step_placed_act (f := adcEnable) (fun _ => cpPlan_i5) (adcEnable_placed ..)
    (by simpa using h))

theorem runSteps_initFrames (hl : linesIdle s = true) :
    runSteps (k + 5) (placed .i6 (.run :: .run :: .run :: .run :: .run :: ts) s) =
      runSteps k (placed .i11 ts (initFrames s)) := by
  refine Eq.trans (runSteps_succ (k + 4) (step_placed_controlFrame (a := Config.aShutdown) (v := Config.vNormal)
    (fun _ => cpPlan_i6) h hl)) ?_
  refine Eq.trans (runSteps_succ (k + 3) (step_placed_controlFrame (a := Config.aTest) (v := Config.vTestOff)
    (fun _ => cpPlan_i7) (by simpa using h) rfl)) ?_
  refine Eq.trans (runSteps_succ (k + 2) (step_placed_controlFrame (a := Config.aDecode) (v := Config.vDecode)
    (fun _ => cpPlan_i8) (by simpa using h) rfl)) ?_
  refine Eq.trans (runSteps_succ (k + 1) (step_placed_controlFrame (a := Config.aIntensity) (v := Config.vIntensity)
    (fun _ => cpPlan_i9) (by simpa using h) rfl)) ?_
  exact runSteps_succ k (step_placed_controlFrame (a := Config.aScanlimit) (v := Config.vScanlimit)
    (fun _ => cpPlan_i10) (by simpa using h) rfl)

end

/-- The startup's head moves the control point only. -/
theorem startup_moves (s : State) : ∃ c, startup s = { s with cp := c } := by
  unfold startup
  split <;> exact ⟨_, rfl⟩

/-- I12 enters CalibratingVoltage at the head of its startup. -/
theorem step_placed_i12 {u : State} {ts : List Turn} (h : atStatement u = true) :
    ∃ c, step (placed .i12 (.run :: ts) u) = .next (placed c ts (enterCalibrating u)) := by
  obtain ⟨c, hc⟩ := startup_moves (enterCalibrating (placed .i12 ts u))
  refine ⟨c, ?_⟩
  rw [step_act (s := placed .i12 (.run :: ts) u) (ts := ts) h rfl (cpPlan_i12 (s := placed .i12 ts u) rfl)]
  exact congrArg Host.Outcome.next hc

theorem linesIdle_initPorts (s : State) : linesIdle (initPorts s) = true := by
  simp [linesIdle, initPorts, idleLine, idlePrims, runPrims_cons, applyPrim, adcEnable]

theorem runSteps_init {s : State} (h : atStatement s = true) (hcp : s.cp = .i1) :
    ∃ c, runSteps 12 (withRuns 12 [] s) = .next (placed c [] (initDone s)) := by
  rw [withRuns_eq_placed 12 hcp]
  obtain ⟨c, hlast⟩ := step_placed_i12 (u := sensorConfigure (initFrames (initPorts s))) (ts := []) (by simpa using h)
  refine ⟨c, ?_⟩
  refine Eq.trans (runSteps_initPorts _ 7 h) ?_
  refine Eq.trans (runSteps_initFrames _ 2 (by simpa using h) (linesIdle_initPorts s)) ?_
  refine Eq.trans (runSteps_succ 1 (step_placed_act (f := sensorConfigure) (fun _ => cpPlan_i11)
    (sensorConfigure_placed ..)
    (by simpa using h))) ?_
  exact runSteps_succ 0 hlast

/-! What Init leaves. -/

theorem initPorts_cfg (s : State) : (initPorts s).cfg = s.cfg := by
  simp [initPorts, idleLine, adcEnable, configurePins]

theorem initFrames_cfg (s : State) : (initFrames s).cfg = s.cfg := by simp [initFrames]

theorem trace_initPorts (s : State) : (initPorts s).trace = s.trace ++
    [.pinsConfigured, .line .cs true, .delay s.cfg.tLink, .line .clk false, .delay s.cfg.tLink,
      .line .din s.cfg.dinIdle, .delay s.cfg.tLink, .adcEnable] := by
  simp [initPorts, idleLine, idlePrims, runPrims_cons, applyPrim, configurePins, adcEnable, record, State.trace]

theorem trace_initFrames (s : State) : (initFrames s).trace = s.trace ++
    frameEvents s.cfg.tLink (frameWord s.cfg.aShutdown s.cfg.vNormal) ++
    frameEvents s.cfg.tLink (frameWord s.cfg.aTest s.cfg.vTestOff) ++
    frameEvents s.cfg.tLink (frameWord s.cfg.aDecode s.cfg.vDecode) ++
    frameEvents s.cfg.tLink (frameWord s.cfg.aIntensity s.cfg.vIntensity) ++
    frameEvents s.cfg.tLink (frameWord s.cfg.aScanlimit s.cfg.vScanlimit) := by
  simp only [initFrames, controlFrame, trace_afterFrame]
  rfl

theorem reg_controlFrame (a v : Config → Byte) {s : State} {c : Config} (hs : s.cfg = c) :
    (controlFrame a v s).rx.reg (a c) = v c := by
  subst hs
  have h := reg_afterFrame_same (frameWord (a s.cfg) (v s.cfg)) s
  rwa [wordAddr_frameWord, wordValue_frameWord] at h

theorem reg_controlFrame_other (a v : Config → Byte) {b : Byte} {s : State} {c : Config} (hs : s.cfg = c)
    (hb : b ≠ a c) : (controlFrame a v s).rx.reg b = s.rx.reg b := by
  subst hs
  exact reg_afterFrame_other (by rwa [wordAddr_frameWord]) s

/-- With nine distinct addresses no frame of Init writes another's register. -/
theorem reg_initFrames {s : State} (h : s.cfg.addressesOk = true) :
    (initFrames s).rx.reg s.cfg.aShutdown = s.cfg.vNormal ∧ (initFrames s).rx.reg s.cfg.aTest = s.cfg.vTestOff ∧
      (initFrames s).rx.reg s.cfg.aDecode = s.cfg.vDecode ∧
      (initFrames s).rx.reg s.cfg.aIntensity = s.cfg.vIntensity ∧
      (initFrames s).rx.reg s.cfg.aScanlimit = s.cfg.vScanlimit := by
  obtain ⟨hi, ⟨hsd, hsi⟩, ⟨hnd, hni, hns⟩, htd, hti, hts, htn⟩ := controlAddresses_ne h
  refine ⟨?_, ?_, ?_, ?_, reg_controlFrame _ _ (by simp)⟩
  · rw [initFrames, reg_controlFrame_other _ _ (by simp) hns, reg_controlFrame_other _ _ (by simp) hni,
      reg_controlFrame_other _ _ (by simp) hnd, reg_controlFrame_other _ _ (by simp) htn.symm,
      reg_controlFrame _ _ (by simp)]
  · rw [initFrames, reg_controlFrame_other _ _ (by simp) hts, reg_controlFrame_other _ _ (by simp) hti,
      reg_controlFrame_other _ _ (by simp) htd, reg_controlFrame _ _ (by simp)]
  · rw [initFrames, reg_controlFrame_other _ _ (by simp) hsd.symm, reg_controlFrame_other _ _ (by simp) hi.symm,
      reg_controlFrame _ _ (by simp)]
  · rw [initFrames, reg_controlFrame_other _ _ (by simp) hsi.symm, reg_controlFrame _ _ (by simp)]

theorem trace_sensorConfigure (s : State) :
    (sensorConfigure s).trace = s.trace ++ [.sensorConfigure s.cfg.sensorCfg] := record_trace _ _

theorem trace_enterCalibrating (s : State) : (enterCalibrating s).trace = s.trace := rfl

theorem trace_placed (c : Cp) (ts : List Turn) (s : State) : (placed c ts s).trace = s.trace := rfl

/-- Settles O41: I1 to I5 set the lines and the ADC up, I6 to I10 are the five frames from idle lines, each to a
register of its own. -/
theorem initSendsTheFiveControlFrames : Obligations.InitSendsTheFiveControlFrames := by
  intro s h hcp haddr
  obtain ⟨c, hrun⟩ := runSteps_init h hcp
  have hregs := reg_initFrames (s := initPorts s) (by rwa [initPorts_cfg])
  rw [initPorts_cfg] at hregs
  refine ⟨_, hrun, rfl, ?_, rfl, rfl, rfl, hregs⟩
  rw [trace_placed, initDone, trace_enterCalibrating, trace_sensorConfigure, trace_initFrames, trace_initPorts,
    initFrames_cfg, initPorts_cfg]

end Sys2Proof.Machine

/-! The startups and a loaded SHOW (spec/44_controller_fsm.md R200 to R205, spec/30_encoding.md R92). -/

namespace Sys2Proof.Machine

theorem cpPlan_m1 {s : State} {first : Bool} (hcp : s.cp = .m1 first) : cpPlan s = .act (turnRound first s) := by
  simp only [cpPlan, hcp]

theorem cpPlan_showVoltage_p3 {s : State} {c : Caller} (hcp : s.cp = .showVoltage .p3 c) :
    cpPlan s = .frame (digitWord .p3 s.dig.p3 s.dp.p3) (afterVoltage c s) := by
  simp only [cpPlan, hcp]
  rfl

section
variable {s : State} {ts : List Turn} (h : atStatement s = true) (ht : s.turns = .run :: ts)
include h ht

/-- M1 with rounds left (R200, R204). -/
theorem step_m1_goes_on {first : Bool} (hcp : s.cp = .m1 first) (hr : nextRound first s ≤ s.cfg.nRounds) :
    step s = .next
      { s with turns := ts, round := nextRound first s, cp := .sampler .select s.cfg.nSamplesRound .multi } := by
  rw [step_act h ht (cpPlan_m1 (s := { s with turns := ts }) hcp)]
  exact congrArg Host.Outcome.next (if_pos hr)

/-- M1 with none left. -/
theorem step_m1_ends {first : Bool} (hcp : s.cp = .m1 first) (hr : s.cfg.nRounds < nextRound first s) :
    step s = .next { s with turns := ts, cp := .c1 } := by
  rw [step_act h ht (cpPlan_m1 (s := { s with turns := ts }) hcp)]
  exact congrArg Host.Outcome.next (if_neg (Nat.not_le.2 hr))

/-- The last digit of a voltage display, and what follows it (R203, R204). -/
theorem step_voltage_show_last {c : Caller} (hl : linesIdle s = true) (hcp : s.cp = .showVoltage .p3 c) :
    step s = .next
      (afterFrame (digitWord .p3 s.dig.p3 s.dp.p3) (afterVoltage c { s with turns := ts })) := by
  refine step_frame h ?_ ht (cpPlan_showVoltage_p3 (s := { s with turns := ts }) hcp)
  cases c <;> exact hl

end

/-- Settles O42: I12's plan is the startup the variant names, M1's the first round if there is one. -/
theorem startupVariantChoosesTheSampling : Obligations.StartupVariantChoosesTheSampling := by
  intro s ts h ht
  refine ⟨fun hcp hv => ?_, fun hcp hv => ?_, fun hcp hr => step_m1_goes_on h ht hcp hr,
    fun hcp hr => step_m1_ends h ht hcp (by rw [hr]; exact Nat.one_pos)⟩
  · rw [step_act h ht (cpPlan_i12 (s := { s with turns := ts }) hcp)]
    simp only [startup, hv]
  · rw [step_act h ht (cpPlan_i12 (s := { s with turns := ts }) hcp)]
    simp only [startup, hv]

/-- Settles O44: the last frame of a round's display leads to M1, which compares the next round with N_ROUNDS. -/
theorem multiRoundRepeatsItsRounds : Obligations.MultiRoundRepeatsItsRounds := by
  intro s ts h ht
  refine ⟨fun hl hcp => ⟨_, step_voltage_show_last h ht hl hcp, trace_afterFrame _ _, rfl, rfl⟩,
    fun hcp hr => step_m1_goes_on h ht hcp hr, fun hcp hr => step_m1_ends h ht hcp (Nat.lt_succ_of_le hr)⟩

/-! The SingleAverage startup's end. -/

theorem cpPlan_formatVoltage {s : State} {c : Caller} (hcp : s.cp = .formatVoltage c) :
    cpPlan s = .act { formatVoltage s with cp := .showVoltage .p0 c } := by
  simp only [cpPlan, hcp]

theorem cpPlan_s3 {s : State} (hcp : s.cp = .s3) : cpPlan s = .act { delay s.cfg.tDwell s with cp := .c1 } := by
  simp only [cpPlan, hcp]

theorem cpPlan_c1 {s : State} (hcp : s.cp = .c1) :
    cpPlan s = .act { s with phase := .displayingTemperature, cp := .temp .start false } := by
  simp only [cpPlan, hcp]

section
variable {u : State} {ts : List Turn} (h : atStatement u = true)
include h

theorem step_placed_voltage_show_last (hl : linesIdle u = true) :
    step (placed (.showVoltage .p3 .single) (.run :: ts) u) =
      .next (placed .s3 ts (afterFrame (digitWord .p3 u.dig.p3 u.dp.p3) u)) :=
  step_voltage_show_last (s := placed (.showVoltage .p3 .single) (.run :: ts) u) h rfl hl rfl

/-- A voltage display of the SingleAverage startup (42_voltage_sampler.md R158). -/
theorem runSteps_voltage_display (k : Nat) (hl : linesIdle u = true) :
    runSteps (k + 4) (placed (.showVoltage .p0 .single) (.run :: .run :: .run :: .run :: ts) u) =
      runSteps k (placed .s3 ts (afterDigits u.dig u.dp u)) :=
  Eq.trans
    (runSteps_voltage_show (s := placed (.showVoltage .p0 .single) (.run :: .run :: .run :: .run :: ts) u)
      h hl rfl rfl (k + 1))
    (runSteps_succ k (step_placed_voltage_show_last
      (u := afterFrame (digitWord .p2 u.dig.p2 u.dp.p2)
        (afterFrame (digitWord .p1 u.dig.p1 u.dp.p1) (afterFrame (digitWord .p0 u.dig.p0 u.dp.p0) u))) h rfl))

end

theorem trace_afterDigits (dig : Quad Byte) (dp : Quad Bool) (s : State) :
    (afterDigits dig dp s).trace = s.trace ++
      frameEvents s.cfg.tLink (digitWord .p0 dig.p0 dp.p0) ++ frameEvents s.cfg.tLink (digitWord .p1 dig.p1 dp.p1) ++
      frameEvents s.cfg.tLink (digitWord .p2 dig.p2 dp.p2) ++
      frameEvents s.cfg.tLink (digitWord .p3 dig.p3 dp.p3) := by
  simp only [afterDigits, trace_afterFrame]
  rfl

theorem atStatement_delay (t : Micros) (s : State) : atStatement (delay t s) = atStatement s := rfl

/-- The state SingleAverage leaves, but for phase, control point and turns. -/
def dwelt (s : State) : State :=
  delay s.cfg.tDwell (afterDigits (formatVoltage s).dig (formatVoltage s).dp (formatVoltage s))

theorem trace_dwelt (s : State) :
    (dwelt s).trace = s.trace ++
      frameEvents s.cfg.tLink (digitWord .p0 (topDigit s.cfg.topDigit (s.vccScaled.toNat / 1000)) true) ++
      frameEvents s.cfg.tLink (digitWord .p1 (BitVec.ofNat 8 (s.vccScaled.toNat / 100 % 10)) false) ++
      frameEvents s.cfg.tLink (digitWord .p2 (BitVec.ofNat 8 (s.vccScaled.toNat / 10 % 10)) false) ++
      frameEvents s.cfg.tLink (digitWord .p3 (BitVec.ofNat 8 (s.vccScaled.toNat % 10)) false) ++
      [.delay s.cfg.tDwell] := by
  rw [dwelt, delay_trace, trace_afterDigits]
  rfl

theorem runSteps_singleAverage {s : State} (h : atStatement s = true) (hl : linesIdle s = true)
    (hcp : s.cp = .formatVoltage .single) :
    runSteps 7 (withRuns 7 [] s) =
      .next (placed (.temp .start false) [] { dwelt s with phase := .displayingTemperature }) := by
  have hformat : step (withRuns 7 [] s) =
      .next (placed (.showVoltage .p0 .single) [.run, .run, .run, .run, .run, .run] (formatVoltage s)) :=
    step_act h rfl (cpPlan_formatVoltage (s := withRuns 6 [] s) hcp)
  have hshown : atStatement (afterDigits (formatVoltage s).dig (formatVoltage s).dp (formatVoltage s)) = true := by
    simp only [afterDigits, atStatement_afterFrame]
    exact h
  have hdwell : step (placed .s3 [.run, .run]
        (afterDigits (formatVoltage s).dig (formatVoltage s).dp (formatVoltage s))) =
      .next (placed .c1 [.run] (dwelt s)) :=
    step_placed_act (f := fun u => delay u.cfg.tDwell u) (fun _ => cpPlan_s3) rfl hshown
  have hdone : step (placed .c1 [.run] (dwelt s)) =
      .next (placed (.temp .start false) [] { dwelt s with phase := .displayingTemperature }) :=
    step_placed_act (f := fun u => { u with phase := .displayingTemperature }) (fun _ => cpPlan_c1) rfl
      ((atStatement_delay _ _).trans hshown)
  rw [runSteps_succ 6 hformat, runSteps_voltage_display (u := formatVoltage s) h 2 hl, runSteps_succ 1 hdwell,
    runSteps_succ 0 hdone, runSteps_zero]

/-- Settles O43: FormatVoltage sets the digits, the four frames show them, and the dwell and C1 end the startup. -/
theorem singleAverageShowsDwellsAndMovesOn : Obligations.SingleAverageShowsDwellsAndMovesOn :=
  fun s h hl hcp => ⟨_, runSteps_singleAverage h hl hcp, rfl, rfl, trace_dwelt s⟩

/-! A loaded SHOW. -/

/-- The state with these calls to make and these turns next. -/
def loaded (cs : List Call) (ts : List Turn) (s : State) : State := { s with script := cs, turns := ts }

theorem loadProgram_show (v : Quad Byte) (point : Option Pos) (s : State) :
    loadProgram [.show v point] (withRuns 4 [] s) =
      loaded
        [.dig 0 v.p0 (point == some .p0), .dig 1 v.p1 (point == some .p1), .dig 2 v.p2 (point == some .p2),
          .dig 3 v.p3 (point == some .p3)]
        [.run, .run, .run, .run] s :=
  rfl

/-- Wherever the fixed program stands between operations, with the lines idle, a call may be made. -/
def CallReady (s : State) : Prop :=
  s.phase ≠ .faulted ∧ s.rest = [] ∧ linesIdle s = true ∧ cpCalled s.cp = false

theorem callReady_afterFrame {s : State} (h : CallReady s) (w : FrameWord) : CallReady (afterFrame w s) :=
  let ⟨hrun, hrest, _, hc⟩ := h
  ⟨hrun, hrest, linesIdle_afterFrame w s, hc⟩

theorem runSteps_loaded_dig (k : Nat) {s : State} (h : CallReady s) {p : Nat} {q : Pos} (hq : posOfNat p = some q)
    (v : Byte) (dp : Bool) (cs : List Call) (ts : List Turn) :
    runSteps (k + 1) (loaded (.dig p v dp :: cs) (.run :: ts) s) =
      runSteps k (loaded cs ts (afterFrame (digitWord q v dp) s)) :=
  let ⟨hrun, hrest, hl, hc⟩ := h
  runSteps_succ k (step_dig_call (s := loaded (.dig p v dp :: cs) (.run :: ts) s) hrun hrest hl hc rfl rfl hq)

theorem runSteps_loaded_digits {s : State} (h : CallReady s) (v : Quad Byte) (dp : Quad Bool) :
    runSteps 4 (loaded [.dig 0 v.p0 dp.p0, .dig 1 v.p1 dp.p1, .dig 2 v.p2 dp.p2, .dig 3 v.p3 dp.p3]
      [.run, .run, .run, .run] s) = .next (loaded [] [] (afterDigits v dp s)) := by
  have h0 := callReady_afterFrame h (digitWord .p0 v.p0 dp.p0)
  have h1 := callReady_afterFrame h0 (digitWord .p1 v.p1 dp.p1)
  have h2 := callReady_afterFrame h1 (digitWord .p2 v.p2 dp.p2)
  rw [runSteps_loaded_dig 3 h (q := .p0) rfl, runSteps_loaded_dig 2 h0 (q := .p1) rfl,
    runSteps_loaded_dig 1 h1 (q := .p2) rfl, runSteps_loaded_dig 0 h2 (q := .p3) rfl, runSteps_zero, afterDigits]

/-- Settles O45: the four calls are four digit frames, each from the idle lines the one before it leaves. -/
theorem showProgramSendsFourDigitFrames : Obligations.ShowProgramSendsFourDigitFrames := by
  intro s v point h hl hc
  obtain ⟨hrun, hrest, hscript⟩ := atStatement_cases h
  have hdone (dp : Quad Bool) : loaded [] [] (afterDigits v dp s) = afterDigits v dp { s with turns := [] } := by
    rw [loaded, ← hscript]
    rfl
  rw [loadProgram_show, ← hdone]
  exact runSteps_loaded_digits ⟨hrun, hrest, hl, hc⟩ v ⟨_, _, _, _⟩

/-! Faults and reset (spec/60_exceptions.md R251, spec/70_reset_and_hazards.md R280, spec/10_state.md R42). -/

theorem controller_faulted (whole : Bool) {s : State} (h : s.phase = .faulted) :
    controller whole s = .fault (.stopped s.fault) := if_pos h

/-- Settles O47: a turn of the controller, whole or one primitive, meets the phase first. -/
theorem faultedControllerTakesNoStep : Obligations.FaultedControllerTakesNoStep := by
  intro s ts h ht
  obtain ht | ht := ht
  · rw [step_run ht]
    exact controller_faulted true (s := { s with turns := ts }) h
  · rw [step_prim ht]
    exact controller_faulted false (s := { s with turns := ts }) h

/-- Settles O49: the reset state's fields as they are written. -/
theorem resetStateHasTheSpecsValues : Obligations.ResetStateHasTheSpecsValues :=
  ⟨rfl, rfl, rfl, rfl, rfl, rfl, rfl, rfl, rfl, rfl, rfl, rfl⟩

/-- Settles O50: a reset's turn is no other agent's, and looks at no field but the configuration and the outside
world's. -/
theorem hardResetWorksAtAnyPoint : Obligations.HardResetWorksAtAnyPoint := by
  intro s ts ht
  have hstep : step s = .next (hardReset { s with turns := ts }) := by
    simp only [step, takeTurn, ht, runTurn]
  exact ⟨_, hstep, rfl, rfl, rfl, rfl, rfl, rfl, rfl, rfl, rfl, rfl, rfl, rfl, rfl, rfl, rfl, rfl⟩

/-- Settles O51: at I1 with nothing in progress, an empty trace and an empty register file, only the widths of the
answers say anything, and the ADC's result is a code. -/
theorem resetStateIsSafe : Obligations.ResetStateIsSafe := by
  have hcontrol : controlOk State.reset = true := rfl
  have hvalues : valuesOk State.reset = true :=
    (valuesOk_iff _).2 ⟨Nat.zero_le _, adcCode_le Config.default _, readingFits_zero _⟩
  have hsampler : samplerOk State.reset = true := rfl
  have hlines : linesOk State.reset = true := rfl
  have hports : portsOk State.reset = true := rfl
  have hlink : linkSpaced State.reset = true := rfl
  have hrx : rxCanonical State.reset = true := rfl
  simp only [Obligations.ResetStateIsSafe, Safe, hcontrol, hvalues, hsampler, hlines, hports, hlink, hrx,
    Bool.and_self]

end Sys2Proof.Machine

/-! What the display shows (spec/45_display_receiver.md R233 to R240). -/

namespace Sys2Proof.Machine

/-- What a digit register drives in Code B: the code's segments and its own bit 7 (R235). -/
def codeB (b : Byte) : Byte := segmentByte (b.setWidth 4) ||| (b &&& 0x80)

/-- A packed digit 0..9 in Code B lights the digit's own glyph, and its point where it is set. -/
theorem segmentChar_codeB_packDigit (n : Fin 10) (dp : Bool) :
    segmentChar (codeB (packDigit (BitVec.ofNat 8 n) dp)) = some (Char.ofNat (48 + n)) ∧
      (codeB (packDigit (BitVec.ofNat 8 n) dp)).getLsbD 7 = dp := by
  revert n dp
  decide

/-- In normal operation with all four digits scanned and decoded, a position lights its register in Code B. -/
theorem litSegments_of_displayOn {c : Config} {r : Rx} (h : displayOn c r = true) (p : Pos) :
    litSegments c r p = codeB (r.reg (physAddr p)) := by
  simp only [displayOn, Bool.and_eq_true, Bool.not_eq_true', beq_iff_eq, decide_eq_true_eq] at h
  obtain ⟨⟨⟨hnormal, htest⟩, hdecode⟩, hscan⟩ := h
  obtain ⟨hlo, hhi⟩ := physAddr_bounds p
  have hscanned : (physAddr p).toNat ≤ (r.reg c.aScanlimit &&& 7).toNat + 1 := by omega
  have hcode : (r.reg c.aDecode).getLsbD ((physAddr p).toNat - 1) = true := by
    have hbit := congrArg (fun b : Byte => b.getLsbD ((physAddr p).toNat - 1)) hdecode
    cases p <;> simpa [physAddr] using hbit
  simp only [litSegments, digitSegments, hscanned, hnormal, htest, hcode, codeB, decide_true, Bool.not_true,
    if_true, Bool.false_eq_true, if_false]

theorem shownDigit_of_displayOn {c : Config} {r : Rx} (h : displayOn c r = true) {p : Pos} {v : Byte} {dp : Bool}
    (hr : r.reg (physAddr p) = packDigit v dp) (hv : v.toNat ≤ 9) : shownDigit c r p = some (digitText v dp) := by
  obtain ⟨hchar, hpoint⟩ := segmentChar_codeB_packDigit ⟨v.toNat, Nat.lt_succ_of_le hv⟩ dp
  simp only [BitVec.ofNat_toNat, BitVec.setWidth_eq] at hchar hpoint
  simp only [shownDigit, litSegments_of_displayOn h, hr, hchar, hpoint, Option.map_some, digitText]

/-- Settles O59: each position shows its own digit, and the shown string is the four in reading order. -/
theorem displayShowsTheDigitsSent : Obligations.DisplayShowsTheDigitsSent := by
  intro c r d p h hdigits
  have hshown (q : Pos) : shownDigit c r q = some (digitText (quadAt d q) (quadAt p q)) :=
    shownDigit_of_displayOn h (hdigits q).1 (hdigits q).2
  simp only [shown, hshown, quadAt]

/-! What a write of another register leaves shown. -/

/-- What is lit depends on the position's digit register and on four control registers. -/
theorem litSegments_congr {c : Config} {r r' : Rx} (hdecode : r'.reg c.aDecode = r.reg c.aDecode)
    (hscan : r'.reg c.aScanlimit = r.reg c.aScanlimit) (hshutdown : r'.reg c.aShutdown = r.reg c.aShutdown)
    (htest : r'.reg c.aTest = r.reg c.aTest) {p : Pos} (hdigit : r'.reg (physAddr p) = r.reg (physAddr p)) :
    litSegments c r' p = litSegments c r p := by
  simp only [litSegments, digitSegments, hdecode, hscan, hshutdown, htest, hdigit]

theorem shown_congr {c : Config} {r r' : Rx} (h : ∀ p, litSegments c r' p = litSegments c r p) :
    shown c r' = shown c r := by
  simp only [shown, shownDigit, h]

theorem aIntensity_ne_physAddr {c : Config} (h : c.addressesOk = true) (p : Pos) : physAddr p ≠ c.aIntensity := by
  obtain ⟨h1, h2, h3, h4⟩ := control_ne_digit h (a := c.aIntensity) (by simp [Config.controlAddresses])
  cases p
  case p0 => exact h1.symm
  case p1 => exact h3.symm
  case p2 => exact h4.symm
  case p3 => exact h2.symm

theorem brightness_eq {c : Config} {r : Rx} {v : Byte} (h : r.reg c.aIntensity = v) :
    (brightness c r).toNat = v.toNat % 16 := by
  rw [brightness, h, BitVec.toNat_setWidth]

/-- Settles O60: the frame writes the intensity register, which is none of those that light a segment. -/
theorem intensityWriteSetsTheBrightnessOnly : Obligations.IntensityWriteSetsTheBrightnessOnly := by
  intro v s hidle hok
  have hsame := reg_afterFrame_same (frameWord s.cfg.aIntensity v) s
  have hother {a : Byte} (ha : a ≠ s.cfg.aIntensity) :=
    reg_afterFrame_other (w := frameWord s.cfg.aIntensity v) (ha.trans_eq (wordAddr_frameWord _ _).symm) s
  rw [wordAddr_frameWord, wordValue_frameWord] at hsame
  obtain ⟨hi, ⟨hsd, hsi⟩, ⟨hnd, hni, hns⟩, htd, hti, hts, htn⟩ := controlAddresses_ne hok
  have hlit (p : Pos) := litSegments_congr (p := p) (hother hi.symm) (hother hsi) (hother hni) (hother hti)
    (hother (aIntensity_ne_physAddr hok p))
  exact ⟨_, exec_of_linesIdle _ hidle, brightness_eq hsame, hlit, shown_congr hlit⟩

end Sys2Proof.Machine
